-- ==== Sys2Proof/Word.lean ====
section
/-! DEFINITION. The word types of the block: 32-bit words and addresses, 8-bit bytes
(spec/00_scope.md R5, XLEN = 32; the slot width is the spec's decision D1, log entry 4). -/

namespace Sys2Proof

/-- An instruction word, an immediate output, an address or a register slot (R5). -/
abbrev Word := BitVec 32

/-- One byte of the memory buffer (R25). -/
abbrev Byte := BitVec 8

end Sys2Proof
end

