-- ==== Sys2Proof/Machine/Codec.lean ====
section
/-! DEFINITION. The BitFieldCodec of spec/40_bitfield_codec.md as pure functions on arguments inside their domain
(the refusals outside it are in Machine/Ops.lean), and the one byte order of the block, little-endian
(spec/20_memory.md R31). -/

namespace Sys2Proof.Codec

/-- `bitrange(word, high, low) = (word >> low) & (2^(high-low+1) - 1)`, the mask formed in exact arithmetic (R60).
Meant for `low ≤ high ≤ 31`. -/
def bitrange (word : Word) (high low : Nat) : Word :=
  (word >>> low) &&& BitVec.ofNat 32 (2 ^ (high - low + 1) - 1)

/-- `bitN = bitrange(word, N, N)` (41_decoder.md, before R64). -/
def bit (word : Word) (n : Nat) : Word := bitrange word n n

/-- `sign_ext(value, width)`: if bit `width-1` is set, every bit from `width` up is set; otherwise the value is
returned unchanged, unmasked (R62, R63). Meant for `1 ≤ width ≤ 32`. -/
def signExt (value : Word) (width : Nat) : Word :=
  if value.getLsbD (width - 1) then value ||| (BitVec.allOnes 32 <<< width) else value

/-- `{b3, b2, b1, b0}`: the word whose least significant byte is `b0`, the byte at the lowest address (R31). -/
def wordOfBytes (b0 b1 b2 b3 : Byte) : Word := b3 ++ b2 ++ b1 ++ b0

/-- `[value[7:0], value[15:8], value[23:16], value[31:24]]` (R92). -/
def bytesOfWord (value : Word) : List Byte :=
  [value.extractLsb' 0 8, value.extractLsb' 8 8, value.extractLsb' 16 8, value.extractLsb' 24 8]

end Sys2Proof.Codec
end

