-- ==== Sys2Proof/Syntax.lean ====
section
/-! DEFINITION. The decoded record of spec/41_decoder.md R64, the six format views of spec/30_encoding.md R43,
and the instructions: one constructor per row of spec/opcode_table.json. -/

namespace Sys2Proof

/-- The DecodedInstruction record: the eleven outputs `decode` produces for every word (R64), each at the width
of spec/30_encoding.md R41 to R48. -/
structure DecodedInstruction where
  opcode : BitVec 7
  funct3 : BitVec 3
  funct7 : BitVec 7
  rd : BitVec 5
  rs1 : BitVec 5
  rs2 : BitVec 5
  immI : Word
  immS : Word
  immB : Word
  immU : Word
  immJ : Word
deriving DecidableEq, Repr

/-- The six views of a word (R43). The name R is the spec's, from general knowledge. -/
inductive Format where
  | R | I | S | B | U | J
deriving DecidableEq, Repr

/-- The instructions: the forty-six rows of spec/opcode_table.json.
The six `decode…` constructors are the universal views DECODE.R to DECODE.J (R51): each can hold any word. The
other forty are the RV32I rows of spec/45_rv32i_opcode_classes.md (PRESUMED: from general knowledge, log entry 6).
A constructor carries every bit of its word that its row does not fix:
register fields, `funct` fields of the views, and the immediate of its format: 12 bits for I and S, 13 for B and
21 for J (bit 0 "implicitly zero", checked by `Instr.wellFormed`), the 20-bit field for U, 5 bits for a shift. -/
inductive Instr where
  -- the universal decode pattern, split into its six views (R51, R64 to R75)
  | decodeR (opcode : BitVec 7) (rd : BitVec 5) (funct3 : BitVec 3) (rs1 rs2 : BitVec 5) (funct7 : BitVec 7)
  | decodeI (opcode : BitVec 7) (rd : BitVec 5) (funct3 : BitVec 3) (rs1 : BitVec 5) (imm : BitVec 12)
  | decodeS (opcode : BitVec 7) (funct3 : BitVec 3) (rs1 rs2 : BitVec 5) (imm : BitVec 12)
  | decodeB (opcode : BitVec 7) (funct3 : BitVec 3) (rs1 rs2 : BitVec 5) (imm : BitVec 13)
  | decodeU (opcode : BitVec 7) (rd : BitVec 5) (imm : BitVec 20)
  | decodeJ (opcode : BitVec 7) (rd : BitVec 5) (imm : BitVec 21)
  -- U and J formats (R104 to R106)
  | lui (rd : BitVec 5) (imm : BitVec 20)
  | auipc (rd : BitVec 5) (imm : BitVec 20)
  | jal (rd : BitVec 5) (imm : BitVec 21)
  -- JALR (R107)
  | jalr (rd rs1 : BitVec 5) (imm : BitVec 12)
  -- branches (R108 to R113)
  | beq (rs1 rs2 : BitVec 5) (imm : BitVec 13)
  | bne (rs1 rs2 : BitVec 5) (imm : BitVec 13)
  | blt (rs1 rs2 : BitVec 5) (imm : BitVec 13)
  | bge (rs1 rs2 : BitVec 5) (imm : BitVec 13)
  | bltu (rs1 rs2 : BitVec 5) (imm : BitVec 13)
  | bgeu (rs1 rs2 : BitVec 5) (imm : BitVec 13)
  -- loads (R114 to R118)
  | lb (rd rs1 : BitVec 5) (imm : BitVec 12)
  | lh (rd rs1 : BitVec 5) (imm : BitVec 12)
  | lw (rd rs1 : BitVec 5) (imm : BitVec 12)
  | lbu (rd rs1 : BitVec 5) (imm : BitVec 12)
  | lhu (rd rs1 : BitVec 5) (imm : BitVec 12)
  -- stores (R119 to R121)
  | sb (rs1 rs2 : BitVec 5) (imm : BitVec 12)
  | sh (rs1 rs2 : BitVec 5) (imm : BitVec 12)
  | sw (rs1 rs2 : BitVec 5) (imm : BitVec 12)
  -- register and immediate (R122 to R130)
  | addi (rd rs1 : BitVec 5) (imm : BitVec 12)
  | slti (rd rs1 : BitVec 5) (imm : BitVec 12)
  | sltiu (rd rs1 : BitVec 5) (imm : BitVec 12)
  | xori (rd rs1 : BitVec 5) (imm : BitVec 12)
  | ori (rd rs1 : BitVec 5) (imm : BitVec 12)
  | andi (rd rs1 : BitVec 5) (imm : BitVec 12)
  | slli (rd rs1 shamt : BitVec 5)
  | srli (rd rs1 shamt : BitVec 5)
  | srai (rd rs1 shamt : BitVec 5)
  -- register and register (R131 to R140)
  | add (rd rs1 rs2 : BitVec 5)
  | sub (rd rs1 rs2 : BitVec 5)
  | sll (rd rs1 rs2 : BitVec 5)
  | slt (rd rs1 rs2 : BitVec 5)
  | sltu (rd rs1 rs2 : BitVec 5)
  | xor (rd rs1 rs2 : BitVec 5)
  | srl (rd rs1 rs2 : BitVec 5)
  | sra (rd rs1 rs2 : BitVec 5)
  | or (rd rs1 rs2 : BitVec 5)
  | and (rd rs1 rs2 : BitVec 5)
  -- FENCE and SYSTEM (R141 to R143)
  | fence (rd rs1 : BitVec 5) (imm : BitVec 12)
  | ecall
  | ebreak
deriving DecidableEq, Repr

/-- The row names of spec/opcode_table.json, in its order. -/
inductive Mnemonic where
  | decodeR | decodeI | decodeS | decodeB | decodeU | decodeJ
  | lui | auipc | jal | jalr
  | beq | bne | blt | bge | bltu | bgeu
  | lb | lh | lw | lbu | lhu | sb | sh | sw
  | addi | slti | sltiu | xori | ori | andi | slli | srli | srai
  | add | sub | sll | slt | sltu | xor | srl | sra | or | and
  | fence | ecall | ebreak
deriving DecidableEq, Repr

/-- The row an instruction stands for. -/
def Instr.mnemonic : Instr → Mnemonic
  | .decodeR .. => .decodeR | .decodeI .. => .decodeI | .decodeS .. => .decodeS
  | .decodeB .. => .decodeB | .decodeU .. => .decodeU | .decodeJ .. => .decodeJ
  | .lui .. => .lui | .auipc .. => .auipc | .jal .. => .jal | .jalr .. => .jalr
  | .beq .. => .beq | .bne .. => .bne | .blt .. => .blt | .bge .. => .bge | .bltu .. => .bltu | .bgeu .. => .bgeu
  | .lb .. => .lb | .lh .. => .lh | .lw .. => .lw | .lbu .. => .lbu | .lhu .. => .lhu
  | .sb .. => .sb | .sh .. => .sh | .sw .. => .sw
  | .addi .. => .addi | .slti .. => .slti | .sltiu .. => .sltiu | .xori .. => .xori | .ori .. => .ori
  | .andi .. => .andi | .slli .. => .slli | .srli .. => .srli | .srai .. => .srai
  | .add .. => .add | .sub .. => .sub | .sll .. => .sll | .slt .. => .slt | .sltu .. => .sltu
  | .xor .. => .xor | .srl .. => .srl | .sra .. => .sra | .or .. => .or | .and .. => .and
  | .fence .. => .fence | .ecall => .ecall | .ebreak => .ebreak

end Sys2Proof
end

