-- ==== Sys2Proof/WellFormed.lean ====
section
/-! DEFINITION. What a term of `Instr` must satisfy to stand for a word: the B and the J immediate have
bit 0 zero ("low bit implicitly zero", spec/30_encoding.md R46, R48). Every other field is held at its exact width, so nothing else
can be ill-formed; no encoding is illegal in this block (R53). -/

namespace Sys2Proof

/-- Bit 0 of a B-type immediate is 0 (R46, R73). -/
def immBWellFormed (imm : BitVec 13) : Bool := !imm.getLsbD 0

/-- Bit 0 of a J-type immediate is 0 (R48, R75). -/
def immJWellFormed (imm : BitVec 21) : Bool := !imm.getLsbD 0

/-- The instruction stands for a word. -/
def Instr.wellFormed : Instr → Bool
  | .decodeB _ _ _ _ imm => immBWellFormed imm
  | .decodeJ _ _ imm => immJWellFormed imm
  | .jal _ imm => immJWellFormed imm
  | .beq _ _ imm => immBWellFormed imm
  | .bne _ _ imm => immBWellFormed imm
  | .blt _ _ imm => immBWellFormed imm
  | .bge _ _ imm => immBWellFormed imm
  | .bltu _ _ imm => immBWellFormed imm
  | .bgeu _ _ imm => immBWellFormed imm
  | .decodeR .. | .decodeI .. | .decodeS .. | .decodeU .. | .lui .. | .auipc .. | .jalr ..
  | .lb .. | .lh .. | .lw .. | .lbu .. | .lhu .. | .sb .. | .sh .. | .sw ..
  | .addi .. | .slti .. | .sltiu .. | .xori .. | .ori .. | .andi .. | .slli .. | .srli .. | .srai ..
  | .add .. | .sub .. | .sll .. | .slt .. | .sltu .. | .xor .. | .srl .. | .sra .. | .or .. | .and ..
  | .fence .. | .ecall | .ebreak => true

end Sys2Proof
end

