-- ==== Sys2Proof/Decode.lean ====
section
/-! DEFINITION. The InstructionDecoder (spec/41_decoder.md R64 to R79): `decode`, total on words; the tag `Instr`
a word gets from its record; decoding from bytes, rejecting by name; and, after them, the encoder, written from
the layouts of spec/30_encoding.md R41, R43 to R48.

The source's decoder has no dispatch on the opcode (R77) and `decode` has none. `tag` is the decode-time tagging of R52, added because
this model names instructions (log entry 5, DESIGN CHOICE): every instruction's meaning is the same `step` (R96), so the tag
changes no behaviour. -/

namespace Sys2Proof

open Codec

/-! ## The decoder of the spec -/

/-- `decode(word)`: the eleven outputs of R65 to R75, each from `word` alone, none selected by the opcode. -/
def decode (word : Word) : DecodedInstruction where
  opcode := (bitrange word 6 0).setWidth 7
  funct3 := (bitrange word 14 12).setWidth 3
  funct7 := (bitrange word 31 25).setWidth 7
  rd := (bitrange word 11 7).setWidth 5
  rs1 := (bitrange word 19 15).setWidth 5
  rs2 := (bitrange word 24 20).setWidth 5
  immI := signExt (bitrange word 31 20) 12
  immS := signExt ((bitrange word 31 25 <<< 5) ||| bitrange word 11 7) 12
  immB := signExt ((bit word 31 <<< 12) ||| (bitrange word 30 25 <<< 5) ||| (bitrange word 11 8 <<< 1)
    ||| (bit word 7 <<< 11)) 13
  immU := signExt (bitrange word 31 12 <<< 12) 32
  immJ := signExt ((bit word 31 <<< 20) ||| (bitrange word 19 12 <<< 12) ||| (bit word 20 <<< 11)
    ||| (bitrange word 30 21 <<< 1)) 21

/-! ## The immediates an instruction carries: the source-width bits of the record's outputs -/

/-- The 12 bits of `imm_i` (R44). -/
def immIOf (d : DecodedInstruction) : BitVec 12 := d.immI.setWidth 12
/-- The 12 bits of `imm_s` (R45). -/
def immSOf (d : DecodedInstruction) : BitVec 12 := d.immS.setWidth 12
/-- The 13 bits of `imm_b`, bit 0 among them (R46). -/
def immBOf (d : DecodedInstruction) : BitVec 13 := d.immB.setWidth 13
/-- The 20-bit field of `imm_u` (R47). -/
def immUOf (d : DecodedInstruction) : BitVec 20 := d.immU.extractLsb' 12 20
/-- The 21 bits of `imm_j`, bit 0 among them (R48). -/
def immJOf (d : DecodedInstruction) : BitVec 21 := d.immJ.setWidth 21

/-! ## The six universal views (R42, R43, R51): every word has all six -/

/-- The view of a word in a format: the rows DECODE.R to DECODE.J. -/
def view (f : Format) (d : DecodedInstruction) : Instr :=
  match f with
  | .R => .decodeR d.opcode d.rd d.funct3 d.rs1 d.rs2 d.funct7
  | .I => .decodeI d.opcode d.rd d.funct3 d.rs1 (immIOf d)
  | .S => .decodeS d.opcode d.funct3 d.rs1 d.rs2 (immSOf d)
  | .B => .decodeB d.opcode d.funct3 d.rs1 d.rs2 (immBOf d)
  | .U => .decodeU d.opcode d.rd (immUOf d)
  | .J => .decodeJ d.opcode d.rd (immJOf d)

/-- The format RV32I assigns to an opcode field, if any (R102; PRESUMED, from general knowledge, log entry 6). -/
def formatOf (opcode : BitVec 7) : Option Format :=
  if opcode = 0x37#7 then some .U
  else if opcode = 0x17#7 then some .U
  else if opcode = 0x6F#7 then some .J
  else if opcode = 0x67#7 then some .I
  else if opcode = 0x63#7 then some .B
  else if opcode = 0x03#7 then some .I
  else if opcode = 0x23#7 then some .S
  else if opcode = 0x13#7 then some .I
  else if opcode = 0x33#7 then some .R
  else if opcode = 0x0F#7 then some .I
  else if opcode = 0x73#7 then some .I
  else none

/-! ## The tag -/

/-- Branches by `funct3` (R103, R108 to R113); a reserved `funct3` leaves the B view. -/
def tagBranch (d : DecodedInstruction) : Instr :=
  if d.funct3 = 0 then .beq d.rs1 d.rs2 (immBOf d)
  else if d.funct3 = 1 then .bne d.rs1 d.rs2 (immBOf d)
  else if d.funct3 = 4 then .blt d.rs1 d.rs2 (immBOf d)
  else if d.funct3 = 5 then .bge d.rs1 d.rs2 (immBOf d)
  else if d.funct3 = 6 then .bltu d.rs1 d.rs2 (immBOf d)
  else if d.funct3 = 7 then .bgeu d.rs1 d.rs2 (immBOf d)
  else view .B d

/-- Loads by `funct3` (R103, R114 to R118); a reserved `funct3` leaves the I view. -/
def tagLoad (d : DecodedInstruction) : Instr :=
  if d.funct3 = 0 then .lb d.rd d.rs1 (immIOf d)
  else if d.funct3 = 1 then .lh d.rd d.rs1 (immIOf d)
  else if d.funct3 = 2 then .lw d.rd d.rs1 (immIOf d)
  else if d.funct3 = 4 then .lbu d.rd d.rs1 (immIOf d)
  else if d.funct3 = 5 then .lhu d.rd d.rs1 (immIOf d)
  else view .I d

/-- Stores by `funct3` (R103, R119 to R121); a reserved `funct3` leaves the S view. -/
def tagStore (d : DecodedInstruction) : Instr :=
  if d.funct3 = 0 then .sb d.rs1 d.rs2 (immSOf d)
  else if d.funct3 = 1 then .sh d.rs1 d.rs2 (immSOf d)
  else if d.funct3 = 2 then .sw d.rs1 d.rs2 (immSOf d)
  else view .S d

/-- Register-immediate operations by `funct3`, the shifts also by `funct7` (R103, R122 to R130). The shift amount
is `word[24:20]`, which the record exposes as `rs2` (R128). -/
def tagOpImm (d : DecodedInstruction) : Instr :=
  if d.funct3 = 0 then .addi d.rd d.rs1 (immIOf d)
  else if d.funct3 = 2 then .slti d.rd d.rs1 (immIOf d)
  else if d.funct3 = 3 then .sltiu d.rd d.rs1 (immIOf d)
  else if d.funct3 = 4 then .xori d.rd d.rs1 (immIOf d)
  else if d.funct3 = 6 then .ori d.rd d.rs1 (immIOf d)
  else if d.funct3 = 7 then .andi d.rd d.rs1 (immIOf d)
  else if d.funct3 = 1 ∧ d.funct7 = 0x00#7 then .slli d.rd d.rs1 d.rs2
  else if d.funct3 = 5 ∧ d.funct7 = 0x00#7 then .srli d.rd d.rs1 d.rs2
  else if d.funct3 = 5 ∧ d.funct7 = 0x20#7 then .srai d.rd d.rs1 d.rs2
  else view .I d

/-- Register-register operations by `funct3` and `funct7` (R103, R131 to R140). -/
def tagOp (d : DecodedInstruction) : Instr :=
  if d.funct7 = 0x00#7 then
    if d.funct3 = 0 then .add d.rd d.rs1 d.rs2
    else if d.funct3 = 1 then .sll d.rd d.rs1 d.rs2
    else if d.funct3 = 2 then .slt d.rd d.rs1 d.rs2
    else if d.funct3 = 3 then .sltu d.rd d.rs1 d.rs2
    else if d.funct3 = 4 then .xor d.rd d.rs1 d.rs2
    else if d.funct3 = 5 then .srl d.rd d.rs1 d.rs2
    else if d.funct3 = 6 then .or d.rd d.rs1 d.rs2
    else .and d.rd d.rs1 d.rs2
  else if d.funct7 = 0x20#7 then
    if d.funct3 = 0 then .sub d.rd d.rs1 d.rs2
    else if d.funct3 = 5 then .sra d.rd d.rs1 d.rs2
    else view .R d
  else view .R d

/-- SYSTEM: the two whole words `0x00000073` and `0x00100073` (R142, R143). -/
def tagSystem (d : DecodedInstruction) : Instr :=
  if d.funct3 = 0 ∧ d.rd = 0 ∧ d.rs1 = 0 ∧ immIOf d = 0x000#12 then .ecall
  else if d.funct3 = 0 ∧ d.rd = 0 ∧ d.rs1 = 0 ∧ immIOf d = 0x001#12 then .ebreak
  else view .I d

/-- The instruction a decoded word is tagged with: the RV32I row it matches (R103) if there is one, else the view
of the format of its opcode (R102), else the immediate-free view R (log entry 5). -/
def tag (d : DecodedInstruction) : Instr :=
  if d.opcode = 0x37#7 then .lui d.rd (immUOf d)
  else if d.opcode = 0x17#7 then .auipc d.rd (immUOf d)
  else if d.opcode = 0x6F#7 then .jal d.rd (immJOf d)
  else if d.opcode = 0x67#7 then
    if d.funct3 = 0 then .jalr d.rd d.rs1 (immIOf d) else view .I d
  else if d.opcode = 0x63#7 then tagBranch d
  else if d.opcode = 0x03#7 then tagLoad d
  else if d.opcode = 0x23#7 then tagStore d
  else if d.opcode = 0x13#7 then tagOpImm d
  else if d.opcode = 0x33#7 then tagOp d
  else if d.opcode = 0x0F#7 then
    if d.funct3 = 0 then .fence d.rd d.rs1 (immIOf d) else view .I d
  else if d.opcode = 0x73#7 then tagSystem d
  else view .R d

/-- The instruction of a word: total, no word is refused (R53, R76). -/
def decodeWord (word : Word) : Instr := tag (decode word)

/-! ## Decoding bytes -/

/-- Why a byte sequence holds no instruction: its only case is that it is shorter than the fixed width (R40). -/
inductive DecodeError where
  | truncated (have_ : Nat)
deriving DecidableEq, Repr

/-- The first instruction of a byte sequence and the bytes after it: four bytes, least significant first (R40). -/
def decodeBytes : List Byte → Except DecodeError (Instr × List Byte)
  | b0 :: b1 :: b2 :: b3 :: rest => .ok (decodeWord (wordOfBytes b0 b1 b2 b3), rest)
  | short => .error (.truncated short.length)

/-- The bytes of a row's word as memory holds them (R31, R40); the bits above `nbits` are zero. -/
def tableBytes (w : Nat) : List Byte := bytesOfWord (BitVec.ofNat 32 w)

/-- The instruction the decoder reads from a word numbered as spec/opcode_table.json numbers it; none for
more bits than an instruction has (R40). -/
def decodeTableWord (nbits w : Nat) : Option Instr :=
  if nbits ≤ 32 then
    match decodeBytes (tableBytes w) with
    | .ok (i, _) => some i
    | .error _ => none
  else none

/-! ## The encoder -/

/-- R view: `{funct7, rs2, rs1, funct3, rd, opcode}` (R41). -/
def encodeR (opcode : BitVec 7) (rd : BitVec 5) (funct3 : BitVec 3) (rs1 rs2 : BitVec 5) (funct7 : BitVec 7) : Word :=
  funct7 ++ rs2 ++ rs1 ++ funct3 ++ rd ++ opcode

/-- I view: `{imm[11:0], rs1, funct3, rd, opcode}` (R43, R44). -/
def encodeI (opcode : BitVec 7) (rd : BitVec 5) (funct3 : BitVec 3) (rs1 : BitVec 5) (imm : BitVec 12) : Word :=
  imm ++ rs1 ++ funct3 ++ rd ++ opcode

/-- S view: `{imm[11:5], rs2, rs1, funct3, imm[4:0], opcode}` (R43, R45). -/
def encodeS (opcode : BitVec 7) (funct3 : BitVec 3) (rs1 rs2 : BitVec 5) (imm : BitVec 12) : Word :=
  imm.extractLsb' 5 7 ++ rs2 ++ rs1 ++ funct3 ++ imm.extractLsb' 0 5 ++ opcode

/-- B view: `{imm[12], imm[10:5], rs2, rs1, funct3, imm[4:1], imm[11], opcode}` (R43, R46). -/
def encodeB (opcode : BitVec 7) (funct3 : BitVec 3) (rs1 rs2 : BitVec 5) (imm : BitVec 13) : Word :=
  imm.extractLsb' 12 1 ++ imm.extractLsb' 5 6 ++ rs2 ++ rs1 ++ funct3 ++ imm.extractLsb' 1 4 ++ imm.extractLsb' 11 1
    ++ opcode

/-- U view: `{imm[31:12], rd, opcode}` (R43, R47). -/
def encodeU (opcode : BitVec 7) (rd : BitVec 5) (imm : BitVec 20) : Word := imm ++ rd ++ opcode

/-- J view: `{imm[20], imm[10:1], imm[11], imm[19:12], rd, opcode}` (R43, R48). -/
def encodeJ (opcode : BitVec 7) (rd : BitVec 5) (imm : BitVec 21) : Word :=
  imm.extractLsb' 20 1 ++ imm.extractLsb' 1 10 ++ imm.extractLsb' 11 1 ++ imm.extractLsb' 12 8 ++ rd ++ opcode

/-- The word of a well-formed instruction: its fields at their places and, for a RV32I row, the opcode, `funct3`
and `funct7` of R103. -/
def encode : Instr → Word
  | .decodeR op rd f3 rs1 rs2 f7 => encodeR op rd f3 rs1 rs2 f7
  | .decodeI op rd f3 rs1 imm => encodeI op rd f3 rs1 imm
  | .decodeS op f3 rs1 rs2 imm => encodeS op f3 rs1 rs2 imm
  | .decodeB op f3 rs1 rs2 imm => encodeB op f3 rs1 rs2 imm
  | .decodeU op rd imm => encodeU op rd imm
  | .decodeJ op rd imm => encodeJ op rd imm
  | .lui rd imm => encodeU 0x37#7 rd imm
  | .auipc rd imm => encodeU 0x17#7 rd imm
  | .jal rd imm => encodeJ 0x6F#7 rd imm
  | .jalr rd rs1 imm => encodeI 0x67#7 rd 0#3 rs1 imm
  | .beq rs1 rs2 imm => encodeB 0x63#7 0#3 rs1 rs2 imm
  | .bne rs1 rs2 imm => encodeB 0x63#7 1#3 rs1 rs2 imm
  | .blt rs1 rs2 imm => encodeB 0x63#7 4#3 rs1 rs2 imm
  | .bge rs1 rs2 imm => encodeB 0x63#7 5#3 rs1 rs2 imm
  | .bltu rs1 rs2 imm => encodeB 0x63#7 6#3 rs1 rs2 imm
  | .bgeu rs1 rs2 imm => encodeB 0x63#7 7#3 rs1 rs2 imm
  | .lb rd rs1 imm => encodeI 0x03#7 rd 0#3 rs1 imm
  | .lh rd rs1 imm => encodeI 0x03#7 rd 1#3 rs1 imm
  | .lw rd rs1 imm => encodeI 0x03#7 rd 2#3 rs1 imm
  | .lbu rd rs1 imm => encodeI 0x03#7 rd 4#3 rs1 imm
  | .lhu rd rs1 imm => encodeI 0x03#7 rd 5#3 rs1 imm
  | .sb rs1 rs2 imm => encodeS 0x23#7 0#3 rs1 rs2 imm
  | .sh rs1 rs2 imm => encodeS 0x23#7 1#3 rs1 rs2 imm
  | .sw rs1 rs2 imm => encodeS 0x23#7 2#3 rs1 rs2 imm
  | .addi rd rs1 imm => encodeI 0x13#7 rd 0#3 rs1 imm
  | .slti rd rs1 imm => encodeI 0x13#7 rd 2#3 rs1 imm
  | .sltiu rd rs1 imm => encodeI 0x13#7 rd 3#3 rs1 imm
  | .xori rd rs1 imm => encodeI 0x13#7 rd 4#3 rs1 imm
  | .ori rd rs1 imm => encodeI 0x13#7 rd 6#3 rs1 imm
  | .andi rd rs1 imm => encodeI 0x13#7 rd 7#3 rs1 imm
  | .slli rd rs1 shamt => encodeR 0x13#7 rd 1#3 rs1 shamt 0x00#7
  | .srli rd rs1 shamt => encodeR 0x13#7 rd 5#3 rs1 shamt 0x00#7
  | .srai rd rs1 shamt => encodeR 0x13#7 rd 5#3 rs1 shamt 0x20#7
  | .add rd rs1 rs2 => encodeR 0x33#7 rd 0#3 rs1 rs2 0x00#7
  | .sub rd rs1 rs2 => encodeR 0x33#7 rd 0#3 rs1 rs2 0x20#7
  | .sll rd rs1 rs2 => encodeR 0x33#7 rd 1#3 rs1 rs2 0x00#7
  | .slt rd rs1 rs2 => encodeR 0x33#7 rd 2#3 rs1 rs2 0x00#7
  | .sltu rd rs1 rs2 => encodeR 0x33#7 rd 3#3 rs1 rs2 0x00#7
  | .xor rd rs1 rs2 => encodeR 0x33#7 rd 4#3 rs1 rs2 0x00#7
  | .srl rd rs1 rs2 => encodeR 0x33#7 rd 5#3 rs1 rs2 0x00#7
  | .sra rd rs1 rs2 => encodeR 0x33#7 rd 5#3 rs1 rs2 0x20#7
  | .or rd rs1 rs2 => encodeR 0x33#7 rd 6#3 rs1 rs2 0x00#7
  | .and rd rs1 rs2 => encodeR 0x33#7 rd 7#3 rs1 rs2 0x00#7
  | .fence rd rs1 imm => encodeI 0x0F#7 rd 0#3 rs1 imm
  | .ecall => 0x00000073#32
  | .ebreak => 0x00100073#32

/-! ## The opcode table -/

/-- A row of R103's summary table. -/
structure OpcodeRow where
  mnemonic : Mnemonic
  mask : Word
  value : Word
deriving DecidableEq, Repr

/-- The word belongs to the row: `word & mask = match`. -/
abbrev OpcodeRow.selects (r : OpcodeRow) (word : Word) : Prop := word &&& r.mask = r.value

/-- The control-transfer rows of R103 (PRESUMED: from general knowledge, log entry 6). -/
def controlRows : List OpcodeRow :=
  [⟨.lui, 0x0000007F, 0x00000037⟩, ⟨.auipc, 0x0000007F, 0x00000017⟩, ⟨.jal, 0x0000007F, 0x0000006F⟩,
   ⟨.jalr, 0x0000707F, 0x00000067⟩, ⟨.beq, 0x0000707F, 0x00000063⟩, ⟨.bne, 0x0000707F, 0x00001063⟩,
   ⟨.blt, 0x0000707F, 0x00004063⟩, ⟨.bge, 0x0000707F, 0x00005063⟩, ⟨.bltu, 0x0000707F, 0x00006063⟩,
   ⟨.bgeu, 0x0000707F, 0x00007063⟩]

/-- The load and store rows of R103. -/
def loadStoreRows : List OpcodeRow :=
  [⟨.lb, 0x0000707F, 0x00000003⟩, ⟨.lh, 0x0000707F, 0x00001003⟩, ⟨.lw, 0x0000707F, 0x00002003⟩,
   ⟨.lbu, 0x0000707F, 0x00004003⟩, ⟨.lhu, 0x0000707F, 0x00005003⟩, ⟨.sb, 0x0000707F, 0x00000023⟩,
   ⟨.sh, 0x0000707F, 0x00001023⟩, ⟨.sw, 0x0000707F, 0x00002023⟩]

/-- The register-immediate rows of R103. -/
def opImmRows : List OpcodeRow :=
  [⟨.addi, 0x0000707F, 0x00000013⟩, ⟨.slti, 0x0000707F, 0x00002013⟩, ⟨.sltiu, 0x0000707F, 0x00003013⟩,
   ⟨.xori, 0x0000707F, 0x00004013⟩, ⟨.ori, 0x0000707F, 0x00006013⟩, ⟨.andi, 0x0000707F, 0x00007013⟩,
   ⟨.slli, 0xFE00707F, 0x00001013⟩, ⟨.srli, 0xFE00707F, 0x00005013⟩, ⟨.srai, 0xFE00707F, 0x40005013⟩]

/-- The register-register, FENCE and SYSTEM rows of R103. -/
def opRows : List OpcodeRow :=
  [⟨.add, 0xFE00707F, 0x00000033⟩, ⟨.sub, 0xFE00707F, 0x40000033⟩, ⟨.sll, 0xFE00707F, 0x00001033⟩,
   ⟨.slt, 0xFE00707F, 0x00002033⟩, ⟨.sltu, 0xFE00707F, 0x00003033⟩, ⟨.xor, 0xFE00707F, 0x00004033⟩,
   ⟨.srl, 0xFE00707F, 0x00005033⟩, ⟨.sra, 0xFE00707F, 0x40005033⟩, ⟨.or, 0xFE00707F, 0x00006033⟩,
   ⟨.and, 0xFE00707F, 0x00007033⟩, ⟨.fence, 0x0000707F, 0x0000000F⟩, ⟨.ecall, 0xFFFFFFFF, 0x00000073⟩,
   ⟨.ebreak, 0xFFFFFFFF, 0x00100073⟩]

/-- The forty rows of R103. -/
def opcodeRows : List OpcodeRow := controlRows ++ loadStoreRows ++ opImmRows ++ opRows

/-- Some row of R103 selects the word. -/
def isRowWord (word : Word) : Bool := opcodeRows.any fun r => decide (r.selects word)

/-- The instruction is the one its own word is tagged with: always so for a RV32I row, and for a view exactly when no row of R103 selects
the word and the view is that of the format of the opcode field (R102), R where there is none (log entry 5). -/
def Instr.canonical (i : Instr) : Bool :=
  let ofView (op : BitVec 7) (f : Format) : Bool :=
    !isRowWord (encode i) && (formatOf op).getD .R == f
  match i with
  | .decodeR op .. => ofView op .R
  | .decodeI op .. => ofView op .I
  | .decodeS op .. => ofView op .S
  | .decodeB op .. => ofView op .B
  | .decodeU op .. => ofView op .U
  | .decodeJ op .. => ofView op .J
  | _ => true

end Sys2Proof
end

