-- ==== Sys2Proof/Config.lean ====
section
/-! DEFINITION. The parameters of spec/00_scope.md R5, and the two model parameters the spec leaves open with
a default (FETCH32_MISALIGNED, N_STEPS). Nothing here is a free value: the spec leaves no value open
(spec/93_implementation_defined.md: "Nothing requires a random draw"). -/

namespace Sys2Proof

/-- What a misaligned in-bounds `fetch32` does: the two values of the parameter FETCH32_MISALIGNED
(spec/20_memory.md R33, decision D5). -/
inductive MisalignedPolicy where
  /-- no check; the four bytes are assembled as for an aligned address -/
  | bytewise
  /-- the model gives a misaligned read no meaning -/
  | refuse
deriving DecidableEq, Repr

namespace Config

/-- `BASE`, the virtual origin of the memory window (R5, R25). -/
abbrev base : Nat := 0x80000000

/-- `MEM_SIZE`, the length of the byte buffer: 2^18 (R5; 90_conflicts.md C1). -/
abbrev memSize : Nat := 0x40000

/-- `MEM_END = BASE + MEM_SIZE`, exclusive (R5). -/
abbrev memEnd : Nat := base + memSize

/-- `NGPR`: general registers (R5). -/
abbrev ngpr : Nat := 32

/-- `NSLOT`: register-file slots (R5). -/
abbrev nslot : Nat := 33

/-- `PC_SLOT`: the slot index of the PC (R5). -/
abbrev pcSlot : Nat := 32

/-- `ILEN_BYTES`: the fixed instruction width, the only PC increment (R5). -/
abbrev ilenBytes : Nat := 4

/-- `RESET_PC = BASE` (R5, R24). -/
abbrev resetPc : Word := BitVec.ofNat 32 base

/-- `FETCH32_MISALIGNED`, at the spec's default. DESIGN CHOICE (the spec's D5, log entry 3); unsafe if the
hardware faulted on misalignment. -/
def fetch32Misaligned : MisalignedPolicy := .bytewise

/-- `N_STEPS`, at the spec's default, the length of the source's own run (R99, R100, decision D10, log entry 18). -/
def nSteps : Nat := 1

end Config

end Sys2Proof
end

