-- ==== Sys2Proof/Machine/Flags.lean ====
section
/-! DEFINITION. The block has no status flag, condition code or predicate register (spec/10_state.md R19), so no
operation computes one. The only arithmetic condition an operation looks at is whether the PC's advance leaves
32 bits (spec/42_register_file_ops.md R86). -/

namespace Sys2Proof.Machine

/-- `pc + 4` does not fit in 32 bits: `pc > 0xFFFF_FFFB` (R18, R86). -/
def advanceOverflows (pc : Word) : Bool := decide (2 ^ 32 ≤ pc.toNat + Config.ilenBytes)

end Sys2Proof.Machine
end

