-- ==== Sys2Proof/Machine/State.lean ====
section
/-! DEFINITION. The state of the machine, "exactly three things" (spec/10_state.md R10): the register-file array,
the memory buffer and the status; the reasons an operation can stop; the log event; and the state after reset. -/

namespace Sys2Proof.Machine

/-- The fatal error classes (spec/60_exceptions.md R150). A fatal error writes nothing and is terminal (R152, R153). -/
inductive Fault where
  /-- A memory operation whose range `[address, address + length)` fails `InBounds` (R151). Raised by `load`,
  `fetch32`, `store32`, and by `step` for its fetch, with the PC and 4. Safe: the machine stops as the spec says. -/
  | boundsViolation (address : Word) (length : Nat)
  /-- The host's loader cannot parse the image or read a segment (R154, R178). Raised by `runLoader` only. Safe. -/
  | malformedImage
deriving DecidableEq, Repr

/-- The edges of what the spec says: the operation gets no result and no next state (spec/00_scope.md R8). All are safe: a
refusal makes claims unprovable, never false. None but `notRunning` can come of `step` from reset through `load` and `step`. -/
inductive Refusal where
  /-- Raised by `exec` for an instruction that has no meaning yet. No arm is left so. Safe. -/
  | notModelled (mnemonic : String)
  /-- Raised by every operation but `reset`, and by `step`, when the status is `Fatal` (R98, R153). Safe. -/
  | notRunning
  /-- Raised by `advance_pc_by(4)` when `pc > 0xFFFF_FFFB` (R18, R86, decision D9, log entry 8). Safe. -/
  | pcOverflow
  /-- Raised by `get` and `set` at an index of 33 or more (R81, R83, decision D8, log entry 9). Safe. -/
  | noSuchSlot (index : Nat)
  /-- Raised by `bitrange` outside `low ≤ high ≤ 31` (R61, decision D3, log entry 10). Safe. -/
  | bitrangeDomain (high low : Nat)
  /-- Raised by `sign_ext` outside `1 ≤ width ≤ 32` (R63, decision D4, log entry 10). Safe. -/
  | signExtDomain (width : Nat)
  /-- Raised by a misaligned `fetch32` under FETCH32_MISALIGNED = `refuse` only (R33, decision D5, log entry 3). Safe. -/
  | misalignedFetch (address : Word)
deriving DecidableEq, Repr

/-- S3: `Running` or `Fatal(class, info)` (R10, R152). -/
inductive Status where
  | running
  | fatal (why : Fault)
deriving DecidableEq, Repr

/-- S1: the array of 33 slots (NSLOT = 33, R5); slots 0 to 31 are `x0` to `x31`, slot 32 is the PC (R12, R16). -/
abbrev RegFile := Vector Word 33

/-- S2: the byte buffer, as the list of (offset, byte) pairs of the bytes that are not `0x00`, offsets strictly rising
and below `MEM_SIZE` (`Memory.wf`, log entry 11). The offset of an address is `address - BASE` (R26). -/
abbrev Memory := List Host.Cell

/-- What an offset that is not listed reads as: memory is "zero-initialized" (R24, R25). -/
abbrev unlistedByte : Byte := 0#8

/-- The architectural state (R10). -/
structure State where
  regs : RegFile
  mem : Memory
  status : Status
deriving DecidableEq, Repr

/-- The state after construction (R24, R170). Slots 0 to 31 are zero by the spec's decision D7 (log entry 2, DESIGN CHOICE,
unsafe); the PC, memory and status are as the rule's table says. -/
def State.reset : State where
  regs := (Vector.replicate 33 0#32).set Config.pcSlot Config.resetPc
  mem := []
  status := .running

end Sys2Proof.Machine
end

