-- ==== Sys2Proof/Machine/Operands.lean ====
section
/-! DEFINITION. Register access by a 5-bit field and the operand read of spec/41_decoder.md R78. The block has no
other operand form (spec/30_encoding.md R50): no addressing mode, no shifted operand, no pair. -/

namespace Sys2Proof.Machine

/-- `x[i]`: 0 for index 0 whatever slot 0 holds, else the stored value (R13, R80). -/
def readX (r : RegFile) (i : BitVec 5) : Word :=
  if i = 0#5 then 0#32 else r[i.toNat]'(Nat.lt_succ_of_lt i.isLt)

/-- `x[i] <- v`: discarded for index 0, else the slot is overwritten (R13, R82). -/
def writeX (r : RegFile) (i : BitVec 5) (v : Word) : RegFile :=
  if i = 0#5 then r else r.set i.toNat v (Nat.lt_succ_of_lt i.isLt)

/-- `program_counter()`: slot 32 (R84). -/
def programCounter (r : RegFile) : Word := r[Config.pcSlot]

/-- The write of slot 32 (R16). -/
def setPc (r : RegFile) (v : Word) : RegFile := r.set Config.pcSlot v

/-- `vs1 = x[rs1]` and `vs2 = x[rs2]`, read for every word whatever its opcode (R50, R78). -/
def readOperands (r : RegFile) (d : DecodedInstruction) : Word × Word := (readX r d.rs1, readX r d.rs2)

end Sys2Proof.Machine
end

