-- ==== Sys2Proof/Machine/Ops.lean ====
section
/-! DEFINITION. The named operations over memory and registers (spec/42_register_file_ops.md,
spec/43_memory_ops.md), the codec with its domain (spec/40_bitfield_codec.md), the fetch, lines 3 to 6 of `step`
(spec/44_machine_step.md R94), and the effect of a fatal error (spec/60_exceptions.md R152). -/

namespace Sys2Proof.Machine

/-! ## Results -/

/-- The three outcomes of an operation (spec/00_scope.md R8). The change a fatal error makes to the status is
`raiseFatal`. -/
inductive Result (α : Type) where
  | ok (result : α)
  | fault (why : Fault)
  | refused (why : Refusal)
deriving DecidableEq, Repr

/-- One operation and then another: the first error ends both. -/
def Result.bind {α β : Type} (r : Result α) (f : α → Result β) : Result β :=
  match r with
  | .ok a => f a
  | .fault e => .fault e
  | .refused e => .refused e

/-- A result made into another by a function. -/
def Result.map {α β : Type} (f : α → β) (r : Result α) : Result β := r.bind fun a => .ok (f a)

/-! ## Codec operations with their domain -/

/-- `bitrange(word, high, low)` (R60), refused outside `low ≤ high ≤ 31` (R61, decision D3, log entry 10). -/
def bitrangeOp (word : Word) (high low : Nat) : Result Word :=
  if low ≤ high ∧ high < 32 then .ok (Codec.bitrange word high low) else .refused (.bitrangeDomain high low)

/-- `sign_ext(value, width)` (R62), refused outside `1 ≤ width ≤ 32` (R63, decision D4, log entry 10). -/
def signExtOp (value : Word) (width : Nat) : Result Word :=
  if 1 ≤ width ∧ width ≤ 32 then .ok (Codec.signExt value width) else .refused (.signExtDomain width)

/-! ## Memory -/

/-- The bounds precondition of an access of `n` bytes at `a`, in exact arithmetic (R27, R28, R29). -/
abbrev InBounds (a : Word) (n : Nat) : Prop :=
  Config.base ≤ a.toNat ∧ a.toNat - Config.base + n ≤ Config.memSize

/-- The offset of an address that passed the bounds check (R26). -/
def offsetOf (a : Word) : Nat := a.toNat - Config.base

namespace Memory

/-- The canonical form from offset `lo` on: offsets strictly rising, inside the buffer, no listed byte `0x00`. -/
def wfFrom (lo : Nat) : Memory → Bool
  | [] => true
  | (o, b) :: rest => decide (lo ≤ o) && decide (o < Config.memSize) && !(b == unlistedByte) && wfFrom (o + 1) rest

/-- The canonical form of memory (log entry 11). -/
def wf (m : Memory) : Bool := wfFrom 0 m

/-- `mem[o]` (R25). -/
def read : Memory → Nat → Byte
  | [], _ => unlistedByte
  | (k, b) :: rest, o => if k = o then b else read rest o

/-- `mem[o] <- b`, keeping the canonical form. -/
def write : Memory → Nat → Byte → Memory
  | [], o, b => if b = unlistedByte then [] else [(o, b)]
  | (k, c) :: rest, o, b =>
    if o < k then (if b = unlistedByte then (k, c) :: rest else (o, b) :: (k, c) :: rest)
    else if o = k then (if b = unlistedByte then rest else (o, b) :: rest)
    else (k, c) :: write rest o b

/-- `mem[o + i] <- bytes[i]` for `i = 0 .. n-1`, in ascending order (R32). -/
def writeBytes : Memory → Nat → List Byte → Memory
  | m, _, [] => m
  | m, o, b :: bs => writeBytes (write m o b) (o + 1) bs

/-- `{mem[o+3], mem[o+2], mem[o+1], mem[o]}` (R31). -/
def readWord (m : Memory) (o : Nat) : Word :=
  Codec.wordOfBytes (read m o) (read m (o + 1)) (read m (o + 2)) (read m (o + 3))

end Memory

/-- `load(address, bytes)`: the byte-range WRITE, the check before any byte is written (R88, R28). -/
def load (m : Memory) (address : Word) (bytes : List Byte) : Result Memory :=
  if InBounds address bytes.length then .ok (Memory.writeBytes m (offsetOf address) bytes)
  else .fault (.boundsViolation address bytes.length)

/-- `fetch32(address)`: the little-endian 32-bit READ (R90), under a value of FETCH32_MISALIGNED (R33). -/
def fetch32With (policy : MisalignedPolicy) (m : Memory) (address : Word) : Result Word :=
  if InBounds address 4 then
    if policy = .refuse ∧ address.toNat % 4 ≠ 0 then .refused (.misalignedFetch address)
    else .ok (Memory.readWord m (offsetOf address))
  else .fault (.boundsViolation address 4)

/-- `fetch32(address)` at the configured FETCH32_MISALIGNED (log entry 3). -/
def fetch32 (m : Memory) (address : Word) : Result Word := fetch32With Config.fetch32Misaligned m address

/-- `store32(address, value)`: the four-byte `load` of a word, least significant byte first (R92, decision D14, log entry 15). -/
def store32 (m : Memory) (address value : Word) : Result Memory := load m address (Codec.bytesOfWord value)

/-! ## Register file -/

/-- `get(index)`: the general registers, slot 32 as the PC, refused beyond (R80, R81). -/
def getSlot (r : RegFile) (index : Nat) : Result Word :=
  if index < Config.ngpr then .ok (readX r (BitVec.ofNat 5 index))
  else if index = Config.pcSlot then .ok (programCounter r)
  else .refused (.noSuchSlot index)

/-- `set(index, value)`: discarded at 0, slot 32 as the PC with no check, refused beyond (R82, R83). -/
def setSlot (r : RegFile) (index : Nat) (value : Word) : Result RegFile :=
  if index < Config.ngpr then .ok (writeX r (BitVec.ofNat 5 index) value)
  else if index = Config.pcSlot then .ok (setPc r value)
  else .refused (.noSuchSlot index)

/-- `advance_pc_by(4)`: `slot[32] <- slot[32] + 4` (R85), refused where the sum leaves 32 bits (R86). -/
def advancePc (r : RegFile) : Result RegFile :=
  if advanceOverflows (programCounter r) then .refused .pcOverflow
  else .ok (setPc r (programCounter r + BitVec.ofNat 32 Config.ilenBytes))

/-! ## Fatal errors -/

/-- The effect of a fatal error on the state: the status becomes `Fatal(class, info)` and nothing else changes (R152).
It saves nothing, vectors nowhere, and there is no return from it but `reset` (R153, R159). -/
def raiseFatal (why : Fault) (s : State) : State := { s with status := .fatal why }

/-! ## The parts of `step` -/

/-- The log event `Log(a, word, d, vs1, vs2)`, an output: no state holds it (R11, R97). -/
structure LogEvent where
  address : Word
  word : Word
  decoded : DecodedInstruction
  vs1 : Word
  vs2 : Word
deriving DecidableEq, Repr

/-- Lines 1 and 2 of `step`: the word at the PC (R94), when the status is `Running` (R98). -/
def fetchWord (s : State) : Result Word :=
  match s.status with
  | .running => fetch32 s.mem (programCounter s.regs)
  | .fatal _ => .refused .notRunning

/-- The event lines 3 to 5 of `step` emit for a fetched word (R94, R97). -/
def logEvent (word : Word) (s : State) : LogEvent :=
  let d := decode word
  let vs := readOperands s.regs d
  { address := programCounter s.regs, word := word, decoded := d, vs1 := vs.1, vs2 := vs.2 }

/-- Lines 3 to 6 of `step` for a fetched word: decode, operand read, log, PC + 4 (R94). The same for every
word: "No dispatch on opcode occurs in this core" (R96). -/
def retire (word : Word) (s : State) : Result (State × LogEvent) :=
  (advancePc s.regs).map fun regs => ({ s with regs := regs }, logEvent word s)

/-- `step` as R94 writes it, with no instruction tag: fetch, then lines 3 to 6, with the event. -/
def stepWithEvent (s : State) : Result (State × LogEvent) :=
  (fetchWord s).bind fun word => retire word s

/-- A step's result as the host's outcome; the event goes to no state (log entry 7). -/
def toOutcome (r : Result (State × LogEvent)) : Host.Outcome State Fault Refusal :=
  match r with
  | .ok (s, _) => .next s
  | .fault why => .fault why
  | .refused why => .refused why

/-- The effect of stepping over an instruction (R94, R96): every instruction's meaning is this. -/
def stepOver (i : Instr) (s : State) : Host.Outcome State Fault Refusal := toOutcome (retire (encode i) s)

/-! ## Placing a program word -/

/-- The state with a word stored where the next `step` fetches, and ready to fetch it: the bytes at the PC if four
bytes there are in the window, else at the reset PC, which becomes the PC; the status `Running` (log entry 14). -/
def placeFetchWord (s : State) (w : Nat) : State :=
  let regs := if InBounds (programCounter s.regs) 4 then s.regs else setPc s.regs Config.resetPc
  { regs := regs
    mem := Memory.writeBytes s.mem (offsetOf (programCounter regs)) (tableBytes w)
    status := .running }

end Sys2Proof.Machine
end

