-- ==== Sys2Proof/Machine/Branch.lean ====
section
/-! DEFINITION. The meanings of the conditional branches. Each is the effect of `step` and nothing more
(spec/44_machine_step.md R94, R96): all eleven decoder outputs are produced, `x[rs1]` and `x[rs2]` are read and logged, and
the PC advances by 4. No register, memory byte or status is written. -/

namespace Sys2Proof.Machine

/-- BEQ (R108): no comparison and no branch: `imm_b` is exposed, never added to the PC. -/
def execBeq (rs1 rs2 : BitVec 5) (imm : BitVec 13) (s : State) : Host.Outcome State Fault Refusal :=
  stepOver (.beq rs1 rs2 imm) s

/-- BNE (R109): no comparison and no branch: `imm_b` is exposed, never added to the PC. -/
def execBne (rs1 rs2 : BitVec 5) (imm : BitVec 13) (s : State) : Host.Outcome State Fault Refusal :=
  stepOver (.bne rs1 rs2 imm) s

/-- BLT (R110): no comparison and no branch: `imm_b` is exposed, never added to the PC. -/
def execBlt (rs1 rs2 : BitVec 5) (imm : BitVec 13) (s : State) : Host.Outcome State Fault Refusal :=
  stepOver (.blt rs1 rs2 imm) s

/-- BGE (R111): no comparison and no branch: `imm_b` is exposed, never added to the PC. -/
def execBge (rs1 rs2 : BitVec 5) (imm : BitVec 13) (s : State) : Host.Outcome State Fault Refusal :=
  stepOver (.bge rs1 rs2 imm) s

/-- BLTU (R112): no comparison and no branch: `imm_b` is exposed, never added to the PC. -/
def execBltu (rs1 rs2 : BitVec 5) (imm : BitVec 13) (s : State) : Host.Outcome State Fault Refusal :=
  stepOver (.bltu rs1 rs2 imm) s

/-- BGEU (R113): no comparison and no branch: `imm_b` is exposed, never added to the PC. -/
def execBgeu (rs1 rs2 : BitVec 5) (imm : BitVec 13) (s : State) : Host.Outcome State Fault Refusal :=
  stepOver (.bgeu rs1 rs2 imm) s

end Sys2Proof.Machine
end

