-- ==== Sys2Proof/Machine/Jump.lean ====
section
/-! DEFINITION. The meanings of JAL and JALR. Each is the effect of `step` and nothing more
(spec/44_machine_step.md R94, R96): all eleven decoder outputs are produced, `x[rs1]` and `x[rs2]` are read and logged, and
the PC advances by 4. No register, memory byte or status is written. -/

namespace Sys2Proof.Machine

/-- JAL (R106): no jump and no link. -/
def execJal (rd : BitVec 5) (imm : BitVec 21) (s : State) : Host.Outcome State Fault Refusal :=
  stepOver (.jal rd imm) s

/-- JALR (R107): "Although RV32I makes it a jump, in this block the PC still advances by 4". -/
def execJalr (rd rs1 : BitVec 5) (imm : BitVec 12) (s : State) : Host.Outcome State Fault Refusal :=
  stepOver (.jalr rd rs1 imm) s

end Sys2Proof.Machine
end

