-- ==== Sys2Proof/Machine/Load.lean ====
section
/-! DEFINITION. The meanings of the load instructions. Each is the effect of `step` and nothing more
(spec/44_machine_step.md R94, R96): all eleven decoder outputs are produced, `x[rs1]` and `x[rs2]` are read and logged, and
the PC advances by 4. No register, memory byte or status is written. -/

namespace Sys2Proof.Machine

/-- LB (R114): memory is not read at `x[rs1] + imm_i` and `x[rd]` is not written. -/
def execLb (rd rs1 : BitVec 5) (imm : BitVec 12) (s : State) : Host.Outcome State Fault Refusal :=
  stepOver (.lb rd rs1 imm) s

/-- LH (R115): memory is not read at `x[rs1] + imm_i` and `x[rd]` is not written. -/
def execLh (rd rs1 : BitVec 5) (imm : BitVec 12) (s : State) : Host.Outcome State Fault Refusal :=
  stepOver (.lh rd rs1 imm) s

/-- LW (R116): memory is not read at `x[rs1] + imm_i` and `x[rd]` is not written. -/
def execLw (rd rs1 : BitVec 5) (imm : BitVec 12) (s : State) : Host.Outcome State Fault Refusal :=
  stepOver (.lw rd rs1 imm) s

/-- LBU (R117): memory is not read at `x[rs1] + imm_i` and `x[rd]` is not written. -/
def execLbu (rd rs1 : BitVec 5) (imm : BitVec 12) (s : State) : Host.Outcome State Fault Refusal :=
  stepOver (.lbu rd rs1 imm) s

/-- LHU (R118): memory is not read at `x[rs1] + imm_i` and `x[rd]` is not written. -/
def execLhu (rd rs1 : BitVec 5) (imm : BitVec 12) (s : State) : Host.Outcome State Fault Refusal :=
  stepOver (.lhu rd rs1 imm) s

end Sys2Proof.Machine
end

