-- ==== Sys2Proof/Machine/OpImm.lean ====
section
/-! DEFINITION. The meanings of the register-immediate operations. Each is the effect of `step` and nothing more
(spec/44_machine_step.md R94, R96): all eleven decoder outputs are produced, `x[rs1]` and `x[rs2]` are read and logged, and
the PC advances by 4. No register, memory byte or status is written. -/

namespace Sys2Proof.Machine

/-- ADDI (R122): `x[rd]` is not written. -/
def execAddi (rd rs1 : BitVec 5) (imm : BitVec 12) (s : State) : Host.Outcome State Fault Refusal :=
  stepOver (.addi rd rs1 imm) s

/-- SLTI (R123): `x[rd]` is not written. -/
def execSlti (rd rs1 : BitVec 5) (imm : BitVec 12) (s : State) : Host.Outcome State Fault Refusal :=
  stepOver (.slti rd rs1 imm) s

/-- SLTIU (R124): `x[rd]` is not written. -/
def execSltiu (rd rs1 : BitVec 5) (imm : BitVec 12) (s : State) : Host.Outcome State Fault Refusal :=
  stepOver (.sltiu rd rs1 imm) s

/-- XORI (R125): `x[rd]` is not written. -/
def execXori (rd rs1 : BitVec 5) (imm : BitVec 12) (s : State) : Host.Outcome State Fault Refusal :=
  stepOver (.xori rd rs1 imm) s

/-- ORI (R126): `x[rd]` is not written. -/
def execOri (rd rs1 : BitVec 5) (imm : BitVec 12) (s : State) : Host.Outcome State Fault Refusal :=
  stepOver (.ori rd rs1 imm) s

/-- ANDI (R127): `x[rd]` is not written. -/
def execAndi (rd rs1 : BitVec 5) (imm : BitVec 12) (s : State) : Host.Outcome State Fault Refusal :=
  stepOver (.andi rd rs1 imm) s

/-- SLLI (R128): `x[rd]` is not written; the shift amount is the `rs2` field, read as a register index all the same. -/
def execSlli (rd rs1 shamt : BitVec 5) (s : State) : Host.Outcome State Fault Refusal :=
  stepOver (.slli rd rs1 shamt) s

/-- SRLI (R129): `x[rd]` is not written; the shift amount is the `rs2` field, read as a register index all the same. -/
def execSrli (rd rs1 shamt : BitVec 5) (s : State) : Host.Outcome State Fault Refusal :=
  stepOver (.srli rd rs1 shamt) s

/-- SRAI (R130): `x[rd]` is not written; the shift amount is the `rs2` field, read as a register index all the same. -/
def execSrai (rd rs1 shamt : BitVec 5) (s : State) : Host.Outcome State Fault Refusal :=
  stepOver (.srai rd rs1 shamt) s

end Sys2Proof.Machine
end

