-- ==== Sys2Proof/Machine/OpReg.lean ====
section
/-! DEFINITION. The meanings of the register-register operations. Each is the effect of `step` and nothing more
(spec/44_machine_step.md R94, R96): all eleven decoder outputs are produced, `x[rs1]` and `x[rs2]` are read and logged, and
the PC advances by 4. No register, memory byte or status is written. -/

namespace Sys2Proof.Machine

/-- ADD (R131): both operands are read, `x[rd]` is not written. -/
def execAdd (rd rs1 rs2 : BitVec 5) (s : State) : Host.Outcome State Fault Refusal := stepOver (.add rd rs1 rs2) s

/-- SUB (R132): both operands are read, `x[rd]` is not written. -/
def execSub (rd rs1 rs2 : BitVec 5) (s : State) : Host.Outcome State Fault Refusal := stepOver (.sub rd rs1 rs2) s

/-- SLL (R133): both operands are read, `x[rd]` is not written. -/
def execSll (rd rs1 rs2 : BitVec 5) (s : State) : Host.Outcome State Fault Refusal := stepOver (.sll rd rs1 rs2) s

/-- SLT (R134): both operands are read, `x[rd]` is not written. -/
def execSlt (rd rs1 rs2 : BitVec 5) (s : State) : Host.Outcome State Fault Refusal := stepOver (.slt rd rs1 rs2) s

/-- SLTU (R135): both operands are read, `x[rd]` is not written. -/
def execSltu (rd rs1 rs2 : BitVec 5) (s : State) : Host.Outcome State Fault Refusal :=
  stepOver (.sltu rd rs1 rs2) s

/-- XOR (R136): both operands are read, `x[rd]` is not written. -/
def execXor (rd rs1 rs2 : BitVec 5) (s : State) : Host.Outcome State Fault Refusal := stepOver (.xor rd rs1 rs2) s

/-- SRL (R137): both operands are read, `x[rd]` is not written. -/
def execSrl (rd rs1 rs2 : BitVec 5) (s : State) : Host.Outcome State Fault Refusal := stepOver (.srl rd rs1 rs2) s

/-- SRA (R138): both operands are read, `x[rd]` is not written. -/
def execSra (rd rs1 rs2 : BitVec 5) (s : State) : Host.Outcome State Fault Refusal := stepOver (.sra rd rs1 rs2) s

/-- OR (R139): both operands are read, `x[rd]` is not written. -/
def execOr (rd rs1 rs2 : BitVec 5) (s : State) : Host.Outcome State Fault Refusal := stepOver (.or rd rs1 rs2) s

/-- AND (R140): both operands are read, `x[rd]` is not written. -/
def execAnd (rd rs1 rs2 : BitVec 5) (s : State) : Host.Outcome State Fault Refusal := stepOver (.and rd rs1 rs2) s

end Sys2Proof.Machine
end

