-- ==== Sys2Proof/Machine/Store.lean ====
section
/-! DEFINITION. The meanings of the store instructions. Each is the effect of `step` and nothing more
(spec/44_machine_step.md R94, R96): all eleven decoder outputs are produced, `x[rs1]` and `x[rs2]` are read and logged, and
the PC advances by 4. No register, memory byte or status is written. -/

namespace Sys2Proof.Machine

/-- SB (R119): memory is not written. -/
def execSb (rs1 rs2 : BitVec 5) (imm : BitVec 12) (s : State) : Host.Outcome State Fault Refusal :=
  stepOver (.sb rs1 rs2 imm) s

/-- SH (R120): memory is not written. -/
def execSh (rs1 rs2 : BitVec 5) (imm : BitVec 12) (s : State) : Host.Outcome State Fault Refusal :=
  stepOver (.sh rs1 rs2 imm) s

/-- SW (R121): memory is not written. -/
def execSw (rs1 rs2 : BitVec 5) (imm : BitVec 12) (s : State) : Host.Outcome State Fault Refusal :=
  stepOver (.sw rs1 rs2 imm) s

end Sys2Proof.Machine
end

