-- ==== Sys2Proof/Machine/System.lean ====
section
/-! DEFINITION. The meanings of FENCE, ECALL and EBREAK. Each is the effect of `step` and nothing more
(spec/44_machine_step.md R94, R96): all eleven decoder outputs are produced, `x[rs1]` and `x[rs2]` are read and logged, and
the PC advances by 4. No register, memory byte or status is written. -/

namespace Sys2Proof.Machine

/-- FENCE (R141): the block orders nothing (spec/20_memory.md R38). -/
def execFence (rd rs1 : BitVec 5) (imm : BitVec 12) (s : State) : Host.Outcome State Fault Refusal :=
  stepOver (.fence rd rs1 imm) s

/-- ECALL (R142): "The block raises no trap" (spec/60_exceptions.md R157). -/
def execEcall (s : State) : Host.Outcome State Fault Refusal := stepOver .ecall s

/-- EBREAK (R143): "The block raises no trap" (spec/60_exceptions.md R157). -/
def execEbreak (s : State) : Host.Outcome State Fault Refusal := stepOver .ebreak s

end Sys2Proof.Machine
end

