-- ==== Sys2Proof/Machine/Upper.lean ====
section
/-! DEFINITION. The meanings of LUI and AUIPC. Each is the effect of `step` and nothing more
(spec/44_machine_step.md R94, R96): all eleven decoder outputs are produced, `x[rs1]` and `x[rs2]` are read and logged, and
the PC advances by 4. No register, memory byte or status is written. -/

namespace Sys2Proof.Machine

/-- LUI (R104): `x[rd]` is not written. -/
def execLui (rd : BitVec 5) (imm : BitVec 20) (s : State) : Host.Outcome State Fault Refusal :=
  stepOver (.lui rd imm) s

/-- AUIPC (R105): `x[rd]` is not written and the PC is not added to. -/
def execAuipc (rd : BitVec 5) (imm : BitVec 20) (s : State) : Host.Outcome State Fault Refusal :=
  stepOver (.auipc rd imm) s

end Sys2Proof.Machine
end

