-- ==== Sys2Proof/Machine/Views.lean ====
section
/-! DEFINITION. The meanings of the six universal views DECODE.R to DECODE.J (spec/30_encoding.md R51; spec/41_decoder.md R64 to R75). Each is the effect of `step` and nothing more
(spec/44_machine_step.md R94, R96): all eleven decoder outputs are produced, `x[rs1]` and `x[rs2]` are read and logged, and
the PC advances by 4. No register, memory byte or status is written. -/

namespace Sys2Proof.Machine

/-- DECODE.R (R64 to R70): the six fixed fields, no immediate. -/
def execDecodeR (opcode : BitVec 7) (rd : BitVec 5) (funct3 : BitVec 3) (rs1 rs2 : BitVec 5) (funct7 : BitVec 7) (s : State) :
    Host.Outcome State Fault Refusal :=
  stepOver (.decodeR opcode rd funct3 rs1 rs2 funct7) s

/-- DECODE.I (R71, R44): the I-type immediate view. -/
def execDecodeI (opcode : BitVec 7) (rd : BitVec 5) (funct3 : BitVec 3) (rs1 : BitVec 5) (imm : BitVec 12) (s : State) :
    Host.Outcome State Fault Refusal :=
  stepOver (.decodeI opcode rd funct3 rs1 imm) s

/-- DECODE.S (R72, R45): the S-type immediate view. -/
def execDecodeS (opcode : BitVec 7) (funct3 : BitVec 3) (rs1 rs2 : BitVec 5) (imm : BitVec 12) (s : State) :
    Host.Outcome State Fault Refusal :=
  stepOver (.decodeS opcode funct3 rs1 rs2 imm) s

/-- DECODE.B (R73, R46): the B-type immediate view. -/
def execDecodeB (opcode : BitVec 7) (funct3 : BitVec 3) (rs1 rs2 : BitVec 5) (imm : BitVec 13) (s : State) :
    Host.Outcome State Fault Refusal :=
  stepOver (.decodeB opcode funct3 rs1 rs2 imm) s

/-- DECODE.U (R74, R47): the U-type immediate view. -/
def execDecodeU (opcode : BitVec 7) (rd : BitVec 5) (imm : BitVec 20) (s : State) :
    Host.Outcome State Fault Refusal :=
  stepOver (.decodeU opcode rd imm) s

/-- DECODE.J (R75, R48): the J-type immediate view. -/
def execDecodeJ (opcode : BitVec 7) (rd : BitVec 5) (imm : BitVec 21) (s : State) :
    Host.Outcome State Fault Refusal :=
  stepOver (.decodeJ opcode rd imm) s

end Sys2Proof.Machine
end

