-- ==== Sys2Proof/Machine/Step.lean ====
section
/-! DEFINITION. The step: fetch at the PC, decode, execute (spec/44_machine_step.md R94). -/

namespace Sys2Proof.Machine

/-- One `step`: the word at the PC when the status is `Running` (R98), then the instruction it is tagged with.
A fatal fetch is the outcome `fault`; the status it leaves is `raiseFatal`'s (R95, R152; log entry 1). -/
def step (s : State) : Host.Outcome State Fault Refusal :=
  match fetchWord s with
  | .ok word => exec (decodeWord word) s
  | .fault why => .fault why
  | .refused why => .refused why

/-- The state with a word of the opcode table stored where `step` fetches next: at the PC, or at the reset PC if the
PC is outside the fetchable window; a machine that runs (log entry 14). It stands for the host's `load` (R176). -/
def State.withFetchWord (s : State) (_nbits w : Nat) : State := placeFetchWord s w

end Sys2Proof.Machine
end

