-- ==== Sys2Proof/Machine/HostOps.lean ====
section
/-! DEFINITION. The block's interface: the closed list of operations of spec/00_scope.md R7, each one atomic
transition with the three outcomes of R8, a fatal one leaving the status `Fatal` (spec/60_exceptions.md R152); and the host's software
around it: the ProgramLoader (spec/70_reset_and_hazards.md R175 to R178), the run (spec/44_machine_step.md R99,
R100) and the DiagnosticDump (spec/60_exceptions.md R164 to R166). -/

namespace Sys2Proof.Machine

/-! ## The dumps as data -/

/-- One row of the memory dump: the virtual address of its first byte and its four little-endian words (R164). -/
structure DumpRow where
  address : Word
  word0 : Word
  word1 : Word
  word2 : Word
  word3 : Word
deriving DecidableEq, Repr

/-- What the register dump shows: `x0` to `x30` (not `x31`), and the PC (R165; 90_conflicts.md C4). -/
structure RegisterDump where
  gprs : List Word
  pc : Word
deriving DecidableEq, Repr

/-- Bytes in a row of the memory dump (R164). -/
abbrev dumpRowBytes : Nat := 16

/-- Row `r` of the memory dump: offsets `16r` to `16r + 15` (R164). -/
def dumpRow (m : Memory) (r : Nat) : DumpRow where
  address := BitVec.ofNat 32 (Config.base + dumpRowBytes * r)
  word0 := Memory.readWord m (dumpRowBytes * r)
  word1 := Memory.readWord m (dumpRowBytes * r + 4)
  word2 := Memory.readWord m (dumpRowBytes * r + 8)
  word3 := Memory.readWord m (dumpRowBytes * r + 12)

/-- The first `rows` rows in ascending order, none past the end of the buffer; how many are printed is the host's
choice (R164, log entry 17). -/
def memoryDump (m : Memory) (rows : Nat) : List DumpRow :=
  (List.range (min rows (Config.memSize / dumpRowBytes))).map (dumpRow m)

/-- The registers the dump shows (R165). -/
def registerDump (r : RegFile) : RegisterDump where
  gprs := (List.range 31).map fun i => readX r (BitVec.ofNat 5 i)
  pc := programCounter r

/-! ## The operations -/

/-- The operations of R7, with their arguments. -/
inductive HostOp where
  | bitrange (word : Word) (high low : Nat)
  | signExt (value : Word) (width : Nat)
  | decode (word : Word)
  | get (index : Nat)
  | set (index : Nat) (value : Word)
  | programCounter
  | advancePc
  | load (address : Word) (bytes : List Byte)
  | fetch32 (address : Word)
  | store32 (address value : Word)
  | step
  | reset
  | memoryDump (rows : Nat)
  | registerDump
deriving DecidableEq, Repr

/-- What an operation answers (the column "result" of R7's table). -/
inductive OpValue where
  | none
  | word (v : Word)
  | decoded (d : DecodedInstruction)
  | event (e : LogEvent)
  | rows (l : List DumpRow)
  | registers (d : RegisterDump)
deriving DecidableEq, Repr

/-- The outcome of an operation of the Machine with the state it leaves (R8): a fatal error leaves one whose status is
`Fatal`; a refusal leaves none. -/
inductive OpOutcome (α : Type) where
  | ok (result : α) (s : State)
  | fatal (why : Fault) (s : State)
  | refuse (why : Refusal)
deriving DecidableEq, Repr

/-- What an operation answers and the state it writes, on a Machine whose status is `Running`. -/
def opEffect (op : HostOp) (s : State) : Result (OpValue × State) :=
  match op with
  | .bitrange word high low => (bitrangeOp word high low).map fun v => (.word v, s)
  | .signExt value width => (signExtOp value width).map fun v => (.word v, s)
  | .decode word => .ok (.decoded (Sys2Proof.decode word), s)
  | .get index => (getSlot s.regs index).map fun v => (.word v, s)
  | .set index value => (setSlot s.regs index value).map fun regs => (.none, { s with regs := regs })
  | .programCounter => .ok (.word (Machine.programCounter s.regs), s)
  | .advancePc => (Machine.advancePc s.regs).map fun regs => (.none, { s with regs := regs })
  | .load address bytes => (Machine.load s.mem address bytes).map fun mem => (.none, { s with mem := mem })
  | .fetch32 address => (Machine.fetch32 s.mem address).map fun v => (.word v, s)
  | .store32 address value => (Machine.store32 s.mem address value).map fun mem => (.none, { s with mem := mem })
  | .step => (stepWithEvent s).map fun r => (.event r.2, r.1)
  | .reset => .ok (.none, State.reset)
  | .memoryDump rows => .ok (.rows (Machine.memoryDump s.mem rows), s)
  | .registerDump => .ok (.registers (Machine.registerDump s.regs), s)

/-- A result as the outcome of an operation begun in `s`: a fatal error changes the status alone (R152). -/
def outcomeFrom (s : State) (r : Result (OpValue × State)) : OpOutcome OpValue :=
  match r with
  | .ok (v, s') => .ok v s'
  | .fault why => .fatal why (raiseFatal why s)
  | .refused why => .refuse why

/-- One operation of the Machine. `reset` is construction and is always accepted; every other operation only when the status is
`Running` (R153). -/
def perform (op : HostOp) (s : State) : OpOutcome OpValue :=
  if op = .reset then outcomeFrom s (opEffect .reset s)
  else
    match s.status with
    | .running => outcomeFrom s (opEffect op s)
    | .fatal _ => .refuse .notRunning

/-- The operations of a list in order, with their answers; the first that is fatal or refused ends it (R6, R37). -/
def performAll : List HostOp → State → OpOutcome (List OpValue)
  | [], s => .ok [] s
  | op :: ops, s =>
    match perform op s with
    | .ok v s' =>
      match performAll ops s' with
      | .ok vs s'' => .ok (v :: vs) s''
      | .fatal why s'' => .fatal why s''
      | .refuse why => .refuse why
    | .fatal why s' => .fatal why s'
    | .refuse why => .refuse why

/-! ## The ProgramLoader -/

/-- What the loader meets in program-header order: a loadable segment's address and raw bytes, or one whose bytes
cannot be read (R175, R178; log entry 16). -/
inductive LoadItem where
  | segment (vaddr : Word) (bytes : List Byte)
  | unreadable
deriving DecidableEq, Repr

/-- A program image: one that cannot be parsed, or the items of its program headers (R175, R178). -/
inductive Image where
  | unparsable
  | parsed (items : List LoadItem)
deriving DecidableEq, Repr

/-- The walk over the segments: a segment below `BASE` is skipped, any other goes to `load`, fatal or not (R176, R177). -/
def loadItems : List LoadItem → State → OpOutcome Unit
  | [], s => .ok () s
  | .segment vaddr bytes :: rest, s =>
    if Config.base ≤ vaddr.toNat then
      match perform (.load vaddr bytes) s with
      | .ok _ s' => loadItems rest s'
      | .fatal why s' => .fatal why s'
      | .refuse why => .refuse why
    else loadItems rest s
  | .unreadable :: _, s => .fatal .malformedImage (raiseFatal .malformedImage s)

/-- The ProgramLoader on a Machine whose status is `Running`: a malformed image is fatal (R154, R178). -/
def runLoader (image : Image) (s : State) : OpOutcome Unit :=
  match s.status with
  | .fatal _ => .refuse .notRunning
  | .running =>
    match image with
    | .unparsable => .fatal .malformedImage (raiseFatal .malformedImage s)
    | .parsed items => loadItems items s

/-! ## The run -/

/-- `n` invocations of `step`, with their events, stopping early at a fatal error (R99, R100; `Config.nSteps` is the
default `n`). The events of the steps before the end are emitted whatever the outcome. -/
def runSteps : Nat → State → List LogEvent × OpOutcome Unit
  | 0, s => ([], .ok () s)
  | n + 1, s =>
    match perform .step s with
    | .ok (.event e) s' => let r := runSteps n s'; (e :: r.1, r.2)
    | .ok _ s' => runSteps n s'
    | .fatal why s' => ([], .fatal why s')
    | .refuse why => ([], .refuse why)

/-- A run as the source defines it: construction, the loader, then `n` steps (R99, R174). -/
def runImage (image : Image) (n : Nat) : List LogEvent × OpOutcome Unit :=
  match runLoader image State.reset with
  | .ok _ s => runSteps n s
  | .fatal why s => ([], .fatal why s)
  | .refuse why => ([], .refuse why)

/-! ## The dumps as text (log entry 17) -/

/-- The case of the hexadecimal digits, which the source does not give (R164). -/
inductive DigitCase where
  | upper | lower
deriving DecidableEq, Repr

/-- One hexadecimal digit. -/
def hexDigit (c : DigitCase) (n : Nat) : Char :=
  if n < 10 then Char.ofNat (48 + n)
  else match c with
    | .upper => Char.ofNat (55 + n)
    | .lower => Char.ofNat (87 + n)

/-- `HHHHHHHH`: the eight hexadecimal digits of a word (R165). -/
def hex8 (c : DigitCase) (v : Word) : List Char :=
  [28, 24, 20, 16, 12, 8, 4, 0].map fun k => hexDigit c (v.extractLsb' k 4).toNat

/-- `0xHHHHHHHH`. -/
def hexWord (c : DigitCase) (v : Word) : List Char := '0' :: 'x' :: hex8 c v

/-- The 32 binary digits of a word, the most significant first. -/
def binary32 (v : Word) : List Char := (List.range 32).reverse.map fun k => if v.getLsbD k then '1' else '0'

/-- The configurable style of the memory dump: "rendered in hexadecimal or binary" (R164). -/
inductive DumpStyle where
  | hex | binary
deriving DecidableEq, Repr

/-- A word of the memory dump in a style; the prefix `0b` of the binary style is this model's choice (log entry 17). -/
def dumpWordText (style : DumpStyle) (c : DigitCase) (v : Word) : List Char :=
  match style with
  | .hex => hexWord c v
  | .binary => '0' :: 'b' :: binary32 v

/-- `0xAAAAAAAA: 0xWWWWWWWW 0xWWWWWWWW 0xWWWWWWWW 0xWWWWWWWW`, or its binary-digit equivalent (R164). -/
def dumpRowText (style : DumpStyle) (c : DigitCase) (row : DumpRow) : List Char :=
  hexWord c row.address ++ [':', ' '] ++ dumpWordText style c row.word0 ++ [' '] ++ dumpWordText style c row.word1
    ++ [' '] ++ dumpWordText style c row.word2 ++ [' '] ++ dumpWordText style c row.word3

/-- The lines of the memory dump (R164). -/
def memoryDumpText (style : DumpStyle) (c : DigitCase) (m : Memory) (rows : Nat) : List (List Char) :=
  (memoryDump m rows).map (dumpRowText style c)

/-- A register's name, three spaces, its eight digits (R165, the layout of 90_conflicts.md C4). -/
def registerLine (c : DigitCase) (name : List Char) (v : Word) : List Char := name ++ [' ', ' ', ' '] ++ hex8 c v

/-- The header line, the lines `xN`, and the PC line (R165). -/
def registerDumpText (c : DigitCase) (r : RegFile) : List (List Char) :=
  let d := registerDump r
  ['R', 'e', 'g', ' ', ' ', ' ', 'V', 'a', 'l', 'u', 'e']
    :: ((List.range d.gprs.length).zip d.gprs).map (fun p => registerLine c ('x' :: Nat.toDigits 10 p.1) p.2)
    ++ [registerLine c ['P', 'C'] d.pc]

end Sys2Proof.Machine
end

