-- ==== Sys2Proof/Safety.lean ====
section
/-! DEFINITION. The terms claims are stated in: what a step may change (its frame), the invariants, and what a fatal end is. -/

namespace Sys2Proof.Machine

/-- `t` is `s` after lines 3 to 6 of `step`, said through the model's reads: the PC is 4 further; every general register,
the stored slot 0, every byte of memory and the status are as before (spec/44_machine_step.md R94, R96). -/
structure SteppedOver (s t : State) : Prop where
  pc : (programCounter t.regs).toNat = (programCounter s.regs).toNat + 4
  gprs : ∀ i : BitVec 5, readX t.regs i = readX s.regs i
  slot0 : t.regs[0] = s.regs[0]
  bytes : ∀ o : Nat, Memory.read t.mem o = Memory.read s.mem o
  memory : t.mem = s.mem
  status : t.status = s.status

/-- The PC can be advanced: `pc ≤ 0xFFFF_FFFB` (R86). Every PC a fetch succeeds at satisfies it (R18). -/
abbrev PcAdvances (s : State) : Prop := (programCounter s.regs).toNat ≤ 0xFFFFFFFB

/-- The Machine is running and its next fetch is in bounds (R29, R98): the step completes. -/
abbrev CanStep (s : State) : Prop := s.status = .running ∧ InBounds (programCounter s.regs) 4

/-- The instruction completes with the effect the spec gives it: `exec` answers a next state that is `s` stepped over. -/
def Completes (i : Instr) (s : State) : Prop := ∃ t, exec i s = .next t ∧ SteppedOver s t

/-- The event an instruction's step emits (R97). -/
def eventOf (i : Instr) (s : State) : LogEvent := logEvent (encode i) s

/-- The word of an instruction at the PC, as its event shows it (R97). -/
abbrev ShowsWord (i : Instr) (s : State) : Prop :=
  (eventOf i s).address = programCounter s.regs ∧ (eventOf i s).word = encode i

/-- What the event of an R-view word exposes: its six fields and the two operand values (R41, R78, R97). -/
def ExposesR (i : Instr) (s : State) (opcode : BitVec 7) (rd : BitVec 5) (funct3 : BitVec 3) (rs1 rs2 : BitVec 5)
    (funct7 : BitVec 7) : Prop :=
  let e := eventOf i s
  ShowsWord i s ∧ e.decoded.opcode = opcode ∧ e.decoded.rd = rd ∧ e.decoded.funct3 = funct3 ∧ e.decoded.rs1 = rs1 ∧
    e.decoded.rs2 = rs2 ∧ e.decoded.funct7 = funct7 ∧ e.vs1 = readX s.regs rs1 ∧ e.vs2 = readX s.regs rs2

/-- What the event of an I-view word exposes: `imm_i` is the 12 bits sign-extended, and the second operand is read at
the index in its low five bits (R43, R44, R78). -/
def ExposesI (i : Instr) (s : State) (opcode : BitVec 7) (rd : BitVec 5) (funct3 : BitVec 3) (rs1 : BitVec 5)
    (imm : BitVec 12) : Prop :=
  let e := eventOf i s
  ShowsWord i s ∧ e.decoded.opcode = opcode ∧ e.decoded.rd = rd ∧ e.decoded.funct3 = funct3 ∧ e.decoded.rs1 = rs1 ∧
    e.decoded.immI = imm.signExtend 32 ∧ e.vs1 = readX s.regs rs1 ∧ e.vs2 = readX s.regs (imm.extractLsb' 0 5)

/-- What the event of an S-view word exposes: `imm_s` is the 12 bits sign-extended (R43, R45, R78). -/
def ExposesS (i : Instr) (s : State) (opcode : BitVec 7) (funct3 : BitVec 3) (rs1 rs2 : BitVec 5)
    (imm : BitVec 12) : Prop :=
  let e := eventOf i s
  ShowsWord i s ∧ e.decoded.opcode = opcode ∧ e.decoded.funct3 = funct3 ∧ e.decoded.rs1 = rs1 ∧ e.decoded.rs2 = rs2 ∧
    e.decoded.immS = imm.signExtend 32 ∧ e.vs1 = readX s.regs rs1 ∧ e.vs2 = readX s.regs rs2

/-- What the event of a B-view word exposes: `imm_b` is the 13 bits sign-extended (R43, R46, R78). -/
def ExposesB (i : Instr) (s : State) (opcode : BitVec 7) (funct3 : BitVec 3) (rs1 rs2 : BitVec 5)
    (imm : BitVec 13) : Prop :=
  let e := eventOf i s
  ShowsWord i s ∧ e.decoded.opcode = opcode ∧ e.decoded.funct3 = funct3 ∧ e.decoded.rs1 = rs1 ∧ e.decoded.rs2 = rs2 ∧
    e.decoded.immB = imm.signExtend 32 ∧ e.vs1 = readX s.regs rs1 ∧ e.vs2 = readX s.regs rs2

/-- What the event of a U-view word exposes: `imm_u` is the 20 bits above twelve zeros; the operands are read at the
indices that lie at word bits 19:15 and 24:20 (R43, R47, R78). -/
def ExposesU (i : Instr) (s : State) (opcode : BitVec 7) (rd : BitVec 5) (imm : BitVec 20) : Prop :=
  let e := eventOf i s
  ShowsWord i s ∧ e.decoded.opcode = opcode ∧ e.decoded.rd = rd ∧ e.decoded.immU = imm ++ 0#12 ∧
    e.vs1 = readX s.regs (imm.extractLsb' 3 5) ∧ e.vs2 = readX s.regs (imm.extractLsb' 8 5)

/-- What the event of a J-view word exposes: `imm_j` is the 21 bits sign-extended; the operands are read at the
indices that lie at word bits 19:15 and 24:20 (R43, R48, R78). -/
def ExposesJ (i : Instr) (s : State) (opcode : BitVec 7) (rd : BitVec 5) (imm : BitVec 21) : Prop :=
  let e := eventOf i s
  ShowsWord i s ∧ e.decoded.opcode = opcode ∧ e.decoded.rd = rd ∧ e.decoded.immJ = imm.signExtend 32 ∧
    e.vs1 = readX s.regs (imm.extractLsb' 15 5) ∧
    e.vs2 = readX s.regs (imm.extractLsb' 1 4 ++ imm.extractLsb' 11 1)

/-- The PC invariant of a run from reset through steps: a multiple of 4, from `BASE` to `MEM_END` (R18). -/
def PcInvariant (s : State) : Prop :=
  (programCounter s.regs).toNat % 4 = 0 ∧ Config.base ≤ (programCounter s.regs).toNat ∧
    (programCounter s.regs).toNat ≤ Config.memEnd

/-- The state invariant of every host operation: memory in its canonical form and inside the buffer, and nothing stored
in slot 0 (R13, R24, R25; log entry 11). -/
def StateInvariant (s : State) : Prop := Memory.wf s.mem = true ∧ s.regs[0] = 0#32

/-- The state an operation leaves, if it leaves one. -/
def OpOutcome.stateAfter? {α : Type} : OpOutcome α → Option State
  | .ok _ s => some s
  | .fatal _ s => some s
  | .refuse _ => none

/-- A run that is a success: it did not end in a fatal error or a refusal (R153: a `Fatal` state "is never a successful
end of a run"). -/
def OpOutcome.succeeded {α : Type} : OpOutcome α → Bool
  | .ok _ _ => true
  | .fatal _ _ => false
  | .refuse _ => false

end Sys2Proof.Machine
end

