-- ==== Sys2Proof/Certificates/Slice0/Obligations.lean ====
section
/-! DEFINITION. The statements about the model, from the numbered rules of spec/. No program is spoken of. -/

open Sys2Proof Sys2Proof.Machine

/-! ## Reset -/

/-- Construction leaves the state of R24 and R170 whatever went before (R171). The zero of slots 0 to 31 is the model's choice
(log entry 2, the spec's decision D7); the PC, memory and status are the source's and the rule's. -/
def Obligations.ConstructionLeavesResetState : Prop :=
  programCounter State.reset.regs = 0x80000000#32 ∧ (∀ i : BitVec 5, readX State.reset.regs i = 0#32) ∧
  State.reset.regs[0] = 0#32 ∧ (∀ o : Nat, Memory.read State.reset.mem o = 0#8) ∧
  State.reset.status = .running ∧ (∀ s : State, perform .reset s = .ok .none State.reset)

/-! ## BitFieldCodec -/

/-- R60, on its domain: the formula, every bit, the range, the full-width case and the source's example; it reads
and writes no state. -/
def Obligations.BitrangeIsTheUnsignedSlice : Prop :=
  (∀ (w : Word) (high low : Nat), low ≤ high → high < 32 →
    bitrangeOp w high low = .ok ((w >>> low) &&& BitVec.ofNat 32 (2 ^ (high - low + 1) - 1)) ∧
    (∀ i : Nat, (Codec.bitrange w high low).getLsbD i = (decide (i ≤ high - low) && w.getLsbD (low + i))) ∧
    (Codec.bitrange w high low).toNat < 2 ^ (high - low + 1) ∧
    (∀ s : State, s.status = .running →
      perform (.bitrange w high low) s = .ok (.word (Codec.bitrange w high low)) s)) ∧
  (∀ w : Word, bitrangeOp w 31 0 = .ok w) ∧
  bitrangeOp 0b101010#32 4 0 = .ok 0b01010#32

/-- R62 and R63: every bit of `sign_ext` on its domain, unmasked above the width when the sign bit is clear; on a value
that fits, the usual sign extension; the operation of a running machine answers it and changes no state; width 32 is
the identity; the source's two examples and R63's two. The domain and the unmasked input are the spec's decision D4 (log
entry 10). -/
def Obligations.SignExtFillsHigherBits : Prop :=
  (∀ (v : Word) (width : Nat), 1 ≤ width → width ≤ 32 →
    signExtOp v width = .ok (Codec.signExt v width) ∧
    (∀ i : Nat, i < 32 →
      (Codec.signExt v width).getLsbD i = (v.getLsbD i || (decide (width ≤ i) && v.getLsbD (width - 1)))) ∧
    (v.toNat < 2 ^ width → Codec.signExt v width = (v.setWidth width).signExtend 32) ∧
    (∀ s : State, s.status = .running →
      perform (.signExt v width) s = .ok (.word (Codec.signExt v width)) s)) ∧
  (∀ v : Word, signExtOp v 32 = .ok v) ∧
  signExtOp 0b10101010#32 8 = .ok 0xFFFFFFAA#32 ∧ signExtOp 0b10101010#32 9 = .ok 0x000000AA#32 ∧
  signExtOp 0x1AA#32 8 = .ok 0xFFFFFFAA#32 ∧ signExtOp 0x12A#32 8 = .ok 0x12A#32

/-- R61 and R63: outside their domain both functions are refused (the spec's decisions D3 and D4, log entry 10); and
the original code's bounds `(32, 25)`, in the formula of R60, give the value of `(31, 25)`. -/
def Obligations.CodecIsRefusedOutsideItsDomain : Prop :=
  (∀ (w : Word) (high low : Nat), high < low ∨ 32 ≤ high ∨ 32 ≤ low →
    bitrangeOp w high low = .refused (.bitrangeDomain high low)) ∧
  (∀ (v : Word) (width : Nat), width = 0 ∨ 32 < width → signExtOp v width = .refused (.signExtDomain width)) ∧
  (∀ w : Word, (w >>> 25) &&& BitVec.ofNat 32 (2 ^ (32 - 25 + 1) - 1) = Codec.bitrange w 31 25)

/-! ## InstructionDecoder -/

/-- R66, R69 and R70: `funct3`, `rs1` and `rs2` are their `bitrange`, which is the word's slice, with the rules'
examples. -/
def Obligations.Funct3AndSourceFieldsAreWordSlices : Prop :=
  (∀ w : Word,
    ((decode w).funct3.setWidth 32 = Codec.bitrange w 14 12 ∧ (decode w).funct3 = w.extractLsb' 12 3 ∧
      (decode w).funct3.toNat ≤ 7) ∧
    ((decode w).rs1.setWidth 32 = Codec.bitrange w 19 15 ∧ (decode w).rs1 = w.extractLsb' 15 5 ∧
      (decode w).rs1.toNat ≤ 31) ∧
    ((decode w).rs2.setWidth 32 = Codec.bitrange w 24 20 ∧ (decode w).rs2 = w.extractLsb' 20 5 ∧
      (decode w).rs2.toNat ≤ 31)) ∧
  (decode 0x00812503#32).funct3 = 2#3 ∧ (decode 0x00812503#32).rs1 = 2#5 ∧ (decode 0x002081B3#32).rs2 = 2#5

/-- R41: the six fixed fields tile the word exactly; with R65, R67 and R68, what `opcode`, `funct7` and `rd` are. -/
def Obligations.FixedFieldsTileTheWord : Prop :=
  ∀ w : Word,
    ((decode w).funct7 ++ (decode w).rs2 ++ (decode w).rs1 ++ (decode w).funct3 ++ (decode w).rd ++ (decode w).opcode
      : BitVec 32) = w ∧
    (decode w).opcode = w.extractLsb' 0 7 ∧ (decode w).rd = w.extractLsb' 7 5 ∧ (decode w).funct7 = w.extractLsb' 25 7

/-- R71: the I-type immediate's formula, the bits it sign-extends, the corner cases and the examples. -/
def Obligations.ITypeImmediate : Prop :=
  (∀ w : Word, (decode w).immI = Codec.signExt (Codec.bitrange w 31 20) 12 ∧
    (decode w).immI = (w.extractLsb' 20 12).signExtend 32 ∧
    (w.extractLsb' 20 12 = 0x800#12 → (decode w).immI = 0xFFFFF800#32) ∧
    (w.extractLsb' 20 12 = 0x7FF#12 → (decode w).immI = 0x000007FF#32) ∧
    (w.extractLsb' 20 12 = 0xFFF#12 → (decode w).immI = 0xFFFFFFFF#32)) ∧
  (decode 0x00500093#32).immI = 0x00000005#32 ∧ (decode 0xFFF08113#32).immI = 0xFFFFFFFF#32

/-- R72: the S-type immediate's formula, the bits it joins and sign-extends, the corner cases and the examples. -/
def Obligations.STypeImmediate : Prop :=
  (∀ w : Word,
    (decode w).immS = Codec.signExt ((Codec.bitrange w 31 25 <<< 5) ||| Codec.bitrange w 11 7) 12 ∧
    (decode w).immS = (w.extractLsb' 25 7 ++ w.extractLsb' 7 5 : BitVec 12).signExtend 32 ∧
    (w.extractLsb' 25 7 = 0x40#7 → w.extractLsb' 7 5 = 0#5 → (decode w).immS = 0xFFFFF800#32) ∧
    (w.extractLsb' 25 7 = 0x3F#7 → w.extractLsb' 7 5 = 0x1F#5 → (decode w).immS = 0x000007FF#32)) ∧
  (decode 0x00512623#32).immS = 0x0000000C#32 ∧ (decode 0xFFF12E23#32).immS = 0xFFFFFFFC#32

/-- R73: the B-type immediate's formula, the scrambled bits it joins and sign-extends, bit 0, the corner cases and the
examples. -/
def Obligations.BTypeImmediate : Prop :=
  (∀ w : Word,
    (decode w).immB = Codec.signExt ((Codec.bitrange w 31 31 <<< 12) ||| (Codec.bitrange w 30 25 <<< 5)
      ||| (Codec.bitrange w 11 8 <<< 1) ||| (Codec.bitrange w 7 7 <<< 11)) 13 ∧
    (decode w).immB = (w.extractLsb' 31 1 ++ w.extractLsb' 7 1 ++ w.extractLsb' 25 6 ++ w.extractLsb' 8 4 ++ 0#1
      : BitVec 13).signExtend 32 ∧
    (decode w).immB.getLsbD 0 = false ∧
    (w.extractLsb' 25 6 = 0x3F#6 → w.extractLsb' 8 4 = 0xF#4 → w.getLsbD 7 = true → w.getLsbD 31 = false →
      (decode w).immB = 0x00000FFE#32)) ∧
  (decode 0x00000080#32).immB = 0x00000800#32 ∧ (decode 0x80000000#32).immB = 0xFFFFF000#32 ∧
  (decode 0xFE000EE3#32).immB = 0xFFFFFFFC#32 ∧ (decode 0x00209463#32).immB = 0x00000008#32

/-- R74: the U-type immediate's formula, the 20 bits it places above twelve zeros, the corner cases and the examples. -/
def Obligations.UTypeImmediate : Prop :=
  (∀ w : Word, (decode w).immU = Codec.signExt (Codec.bitrange w 31 12 <<< 12) 32 ∧
    (decode w).immU = w &&& 0xFFFFF000#32 ∧
    (decode w).immU = (w.extractLsb' 12 20 ++ 0#12 : BitVec 32) ∧
    (w.extractLsb' 12 20 = 0x80000#20 → (decode w).immU = 0x80000000#32) ∧
    (w.extractLsb' 12 20 = 0xFFFFF#20 → (decode w).immU = 0xFFFFF000#32) ∧
    (w.extractLsb' 12 20 = 0#20 → (decode w).immU = 0#32)) ∧
  (decode 0x123452B7#32).immU = 0x12345000#32 ∧ (decode 0x80000197#32).immU = 0x80000000#32

/-- R75: the J-type immediate's formula, the scrambled bits it joins and sign-extends, bit 0, the corner cases and the
examples. -/
def Obligations.JTypeImmediate : Prop :=
  (∀ w : Word,
    (decode w).immJ = Codec.signExt ((Codec.bitrange w 31 31 <<< 20) ||| (Codec.bitrange w 19 12 <<< 12)
      ||| (Codec.bitrange w 20 20 <<< 11) ||| (Codec.bitrange w 30 21 <<< 1)) 21 ∧
    (decode w).immJ = (w.extractLsb' 31 1 ++ w.extractLsb' 12 8 ++ w.extractLsb' 20 1 ++ w.extractLsb' 21 10 ++ 0#1
      : BitVec 21).signExtend 32 ∧
    (decode w).immJ.getLsbD 0 = false ∧
    (decode w).immJ.extractLsb' 12 8 = w.extractLsb' 12 8 ∧
    (w.extractLsb' 12 19 = 0x7FFFF#19 → w.getLsbD 31 = false → (decode w).immJ = 0x000FFFFE#32)) ∧
  (decode 0x00100000#32).immJ = 0x00000800#32 ∧ (decode 0x80000000#32).immJ = 0xFFF00000#32 ∧
  (decode 0x008000EF#32).immJ = 0x00000008#32 ∧ (decode 0xFFDFF06F#32).immJ = 0xFFFFFFFC#32 ∧
  (decode 0x344120EF#32).immJ = 0x00012344#32

/-- R49: the identities between the fields and the immediates of one word. -/
def Obligations.FieldsAndImmediatesShareBits : Prop :=
  ∀ w : Word, let d := decode w
    d.funct7 = d.immI.extractLsb' 5 7 ∧ d.funct7 = d.immS.extractLsb' 5 7 ∧ d.rs2 = d.immI.extractLsb' 0 5 ∧
    d.rd = d.immS.extractLsb' 0 5 ∧
    d.immB.extractLsb' 5 6 = d.immS.extractLsb' 5 6 ∧ d.immB.extractLsb' 5 6 = d.immI.extractLsb' 5 6 ∧
    d.immB.extractLsb' 1 4 = d.immS.extractLsb' 1 4 ∧
    d.immB.getLsbD 11 = d.immS.getLsbD 0 ∧ d.immB.getLsbD 11 = d.rd.getLsbD 0 ∧
    d.immJ.extractLsb' 5 6 = d.immI.extractLsb' 5 6 ∧ d.immJ.extractLsb' 1 4 = d.immI.extractLsb' 1 4 ∧
    d.immJ.getLsbD 11 = d.immI.getLsbD 0 ∧ d.immJ.getLsbD 11 = d.rs2.getLsbD 0 ∧
    d.immJ.extractLsb' 12 8 = d.immU.extractLsb' 12 8 ∧ d.immJ.extractLsb' 12 8 = (d.rs1 ++ d.funct3 : BitVec 8) ∧
    d.immI.getLsbD 31 = w.getLsbD 31 ∧ d.immS.getLsbD 31 = w.getLsbD 31 ∧ d.immB.getLsbD 31 = w.getLsbD 31 ∧
    d.immJ.getLsbD 31 = w.getLsbD 31 ∧ d.immU.getLsbD 31 = w.getLsbD 31

/-- R53: no encoding is illegal. Any four bytes decode; the operation `decode` of a running machine answers the record of
every word, and changes no state (R64, R76); all opcode values are treated alike, for words that differ in it
alone differ in no other output; and a step that fetches any word whatever answers a next state in which the PC is 4
further and nothing else has changed. -/
def Obligations.NoEncodingIsIllegal : Prop :=
  (∀ (b0 b1 b2 b3 : Byte) (rest : List Byte), ∃ i, decodeBytes (b0 :: b1 :: b2 :: b3 :: rest) = .ok (i, rest)) ∧
  (∀ (w : Word) (s : State), s.status = .running → perform (.decode w) s = .ok (.decoded (decode w)) s) ∧
  (∀ w v : Word, w >>> 7 = v >>> 7 → decode v = { decode w with opcode := v.extractLsb' 0 7 }) ∧
  (∀ (w : Word) (s : State), fetchWord s = .ok w → ∃ t, step s = .next t ∧ SteppedOver s t)

/-! ## Encoding -/

/-- Decode and encode agree, for every instruction that its own word is tagged with: every RV32I row with every operand at every
value, and the views of the words no row selects (R41, R43 to R48; the rows' numbers are R103's, log entries 5 and 6). -/
def Obligations.DecodeOfEncodeIsTheInstruction : Prop :=
  ∀ i : Instr, i.wellFormed = true → i.canonical = true → decodeWord (encode i) = i

/-- No bit of any of the 2^32 words is dropped: each is the encoding of the instruction it decodes to, which is
well-formed. -/
def Obligations.EncodeOfDecodeIsTheWord : Prop :=
  ∀ w : Word, (decodeWord w).wellFormed = true ∧ encode (decodeWord w) = w

/-- R42, R43 and R51: all six views hold every word, and a well-formed view instruction is the view of its own word. -/
def Obligations.EveryWordHasAllSixViews : Prop :=
  (∀ (f : Format) (w : Word), (view f (decode w)).wellFormed = true ∧ encode (view f (decode w)) = w) ∧
  (∀ op rd f3 rs1 rs2 f7, view .R (decode (encode (.decodeR op rd f3 rs1 rs2 f7))) = .decodeR op rd f3 rs1 rs2 f7) ∧
  (∀ op rd f3 rs1 imm, view .I (decode (encode (.decodeI op rd f3 rs1 imm))) = .decodeI op rd f3 rs1 imm) ∧
  (∀ op f3 rs1 rs2 imm, view .S (decode (encode (.decodeS op f3 rs1 rs2 imm))) = .decodeS op f3 rs1 rs2 imm) ∧
  (∀ op f3 rs1 rs2 imm, imm.getLsbD 0 = false →
    view .B (decode (encode (.decodeB op f3 rs1 rs2 imm))) = .decodeB op f3 rs1 rs2 imm) ∧
  (∀ op rd imm, view .U (decode (encode (.decodeU op rd imm))) = .decodeU op rd imm) ∧
  (∀ op rd imm, imm.getLsbD 0 = false →
    view .J (decode (encode (.decodeJ op rd imm))) = .decodeJ op rd imm)

/-- R103's masks and matches: a row selects exactly the words that decode to its instruction (PRESUMED rows, log
entry 6). -/
def Obligations.OpcodeRowsSelectTheirInstructions : Prop :=
  ∀ (w : Word) (r : OpcodeRow), r ∈ opcodeRows → (r.selects w ↔ (decodeWord w).mnemonic = r.mnemonic)

/-- A word no row of R103 selects is tagged with the view of its opcode's format (R102), or R (log entry 5). -/
def Obligations.OtherWordsGetTheViewOfTheirFormat : Prop :=
  ∀ w : Word, isRowWord w = false → decodeWord w = view ((formatOf (decode w).opcode).getD .R) (decode w)

/-- Example words of R104 to R143, one or two of each family, decode to their rows' instructions (PRESUMED rows, log
entry 6); the all-zero and the all-ones word, for which the spec names no instruction, are tagged with the R view, the
model's choice (log entry 5). -/
def Obligations.ExampleWordsDecode : Prop :=
  decodeWord 0x123452B7#32 = .lui 5#5 0x12345#20 ∧ decodeWord 0x80000197#32 = .auipc 3#5 0x80000#20 ∧
  decodeWord 0x344120EF#32 = .jal 1#5 0x12344#21 ∧ decodeWord 0x00008067#32 = .jalr 0#5 1#5 0#12 ∧
  decodeWord 0x7E41FFE3#32 = .bgeu 3#5 4#5 0xFFE#13 ∧ decodeWord 0xFE000EE3#32 = .beq 0#5 0#5 0x1FFC#13 ∧
  decodeWord 0x80015503#32 = .lhu 10#5 2#5 0x800#12 ∧ decodeWord 0x80740023#32 = .sb 8#5 7#5 0x800#12 ∧
  decodeWord 0xFFF3A313#32 = .slti 6#5 7#5 0xFFF#12 ∧ decodeWord 0x40325213#32 = .srai 4#5 4#5 3#5 ∧
  decodeWord 0x402081B3#32 = .sub 3#5 1#5 2#5 ∧ decodeWord 0x0FF0000F#32 = .fence 0#5 0#5 0x0FF#12 ∧
  decodeWord 0x00000073#32 = .ecall ∧ decodeWord 0x00100073#32 = .ebreak ∧
  decodeWord 0x00000000#32 = .decodeR 0#7 0#5 0#3 0#5 0#5 0#7 ∧
  decodeWord 0xFFFFFFFF#32 = .decodeR 0x7F#7 31#5 7#3 31#5 31#5 0x7F#7

/-! ## RegisterFile -/

/-- R80: `get` at the indices 0 to 31, through the operation and on a machine whose slot 0 holds anything; it writes nothing and never
fails. The example's zeros after reset are the model's choice (log entry 2). -/
def Obligations.GetReadsTheSlotOrZero : Prop :=
  (∀ s : State, s.status = .running →
    perform (.get 0) s = .ok (.word 0#32) s ∧
    ∀ (i : Nat) (h : i < 32), 0 < i →
      perform (.get i) s = .ok (.word (s.regs[i]'(Nat.lt_succ_of_lt h))) s) ∧
  ∃ t, performAll [.set 5 0xDEADBEEF#32, .get 5, .get 6, .get 0] State.reset
    = .ok [.none, .word 0xDEADBEEF#32, .word 0#32, .word 0#32] t

/-- R82: `set` at the indices 0 to 31 writes its slot and no other, and nothing at 0; the later of two writes
stays; the rule's examples. -/
def Obligations.SetWritesOneSlotOrNothing : Prop :=
  (∀ (s : State) (v : Word), s.status = .running → perform (.set 0 v) s = .ok .none s) ∧
  (∀ (s : State) (i : Nat) (h : i < 32) (v : Word), s.status = .running → 0 < i →
    ∃ t, perform (.set i v) s = .ok .none t ∧ t.regs[i]'(Nat.lt_succ_of_lt h) = v ∧
      (∀ (j : Nat) (hj : j < 33), j ≠ i → t.regs[j] = s.regs[j]) ∧ t.mem = s.mem ∧ t.status = s.status) ∧
  (∀ (s : State) (i : Nat) (v w : Word), s.status = .running → i < 32 →
    ∃ t, performAll [.set i v, .set i w] s = .ok [.none, .none] t ∧ perform (.set i w) s = .ok .none t) ∧
  (∃ t, performAll [.set 0 0xFFFFFFFF#32, .get 0] State.reset = .ok [.none, .word 0#32] t) ∧
  (∃ t, performAll [.set 31 1#32, .get 31] State.reset = .ok [.none, .word 1#32] t)

/-- R84: `program_counter()` is slot 32; it writes nothing and never fails; `0x80000000` after reset. -/
def Obligations.ProgramCounterIsSlot32 : Prop :=
  (∀ s : State, s.status = .running → perform .programCounter s = .ok (.word s.regs[32]) s) ∧
  perform .programCounter State.reset = .ok (.word 0x80000000#32) State.reset

/-- R85 and R86: `advance_pc_by(4)` adds 4 to slot 32 and touches nothing else; where the sum leaves 32 bits it is
refused (the spec's decision D9, log entry 8); the source's example. -/
def Obligations.AdvancePcAddsFour : Prop :=
  (∀ s : State, s.status = .running → s.regs[32].toNat ≤ 0xFFFFFFFB →
    ∃ t, perform .advancePc s = .ok .none t ∧ t.regs[32].toNat = s.regs[32].toNat + 4 ∧
      (∀ (j : Nat) (_ : j < 32), t.regs[j] = s.regs[j]) ∧ t.mem = s.mem ∧ t.status = s.status) ∧
  (∀ s : State, s.status = .running → 0xFFFFFFFB < s.regs[32].toNat →
    perform .advancePc s = .refuse .pcOverflow) ∧
  ∃ t, performAll [.advancePc, .programCounter] State.reset = .ok [.none, .word 0x80000004#32] t

/-- R81 and R83: index 32 of `get` and `set` is the PC, with no check on the value; from 33 on both are refused (the
spec's decision D8, log entry 9). -/
def Obligations.SlotsAbove31 : Prop :=
  ∀ s : State, s.status = .running →
    perform (.get 32) s = perform .programCounter s ∧
    (∀ v : Word, ∃ t, perform (.set 32 v) s = .ok .none t ∧ programCounter t.regs = v ∧
      (∀ (j : Nat) (_ : j < 32), t.regs[j] = s.regs[j]) ∧ t.mem = s.mem ∧ t.status = s.status) ∧
    (∀ i : Nat, 33 ≤ i → perform (.get i) s = .refuse (.noSuchSlot i) ∧
      ∀ v : Word, perform (.set i v) s = .refuse (.noSuchSlot i))

/-- R13, R14 and R87: after any sequence of `set` calls at the indices 0 to 31, `x0` is 0 and every other general
register is the value last written to it, or its old value; the PC, memory and status are as before. -/
def Obligations.AfterAnySetsLastWriteStands : Prop :=
  ∀ (s : State) (writes : List (BitVec 5 × Word)), s.status = .running →
    ∃ vs t, performAll (writes.map fun p => .set p.1.toNat p.2) s = .ok vs t ∧
      readX t.regs 0#5 = 0#32 ∧
      (∀ i : BitVec 5, i ≠ 0#5 →
        readX t.regs i = writes.foldl (fun old p => if p.1 = i then p.2 else old) (readX s.regs i)) ∧
      programCounter t.regs = programCounter s.regs ∧ t.mem = s.mem ∧ t.status = s.status

/-! ## MemoryModel -/

/-- R88: a `load` in bounds writes its bytes at ascending offsets and no other byte, register or status; out of
bounds it is fatal with the address and length and writes nothing; the rule's example. -/
def Obligations.LoadWritesItsRange : Prop :=
  (∀ (s : State) (a : Word) (bytes : List Byte), s.status = .running → Memory.wf s.mem = true →
    InBounds a bytes.length →
    ∃ t, perform (.load a bytes) s = .ok .none t ∧
      (∀ (i : Nat) (h : i < bytes.length), Memory.read t.mem (a.toNat - 0x80000000 + i) = bytes[i]) ∧
      (∀ o : Nat, o < a.toNat - 0x80000000 ∨ a.toNat - 0x80000000 + bytes.length ≤ o →
        Memory.read t.mem o = Memory.read s.mem o) ∧
      t.regs = s.regs ∧ t.status = s.status) ∧
  (∀ (s : State) (a : Word) (bytes : List Byte), s.status = .running → ¬ InBounds a bytes.length →
    ∃ t, perform (.load a bytes) s = .fatal (.boundsViolation a bytes.length) t ∧
      t.mem = s.mem ∧ t.regs = s.regs ∧ t.status = .fatal (.boundsViolation a bytes.length)) ∧
  ∃ t, performAll [.load 0x80000000#32 [0x93#8, 0x00#8, 0x50#8, 0x00#8], .fetch32 0x80000000#32] State.reset
      = .ok [.none, .word 0x00500093#32] t ∧
    Memory.read t.mem 0 = 0x93#8 ∧ Memory.read t.mem 1 = 0x00#8 ∧ Memory.read t.mem 2 = 0x50#8 ∧
    Memory.read t.mem 3 = 0x00#8

/-- R28 and R89: where a `load` is legal, at the edges: no byte at all, the whole buffer, the last byte, a byte past
it, and a start below `BASE`. -/
def Obligations.LoadAtTheEdgesOfTheWindow : Prop :=
  (∀ (s : State) (a : Word), s.status = .running →
    (0x80000000 ≤ a.toNat ∧ a.toNat ≤ 0x80040000 → perform (.load a []) s = .ok .none s) ∧
    (a.toNat < 0x80000000 ∨ 0x80040000 < a.toNat →
      perform (.load a []) s = .fatal (.boundsViolation a 0) (raiseFatal (.boundsViolation a 0) s))) ∧
  (∀ (s : State) (bytes : List Byte), s.status = .running →
    (bytes.length = 262144 → ∃ t, perform (.load 0x80000000#32 bytes) s = .ok .none t) ∧
    (262144 < bytes.length → ∃ t,
      perform (.load 0x80000000#32 bytes) s = .fatal (.boundsViolation 0x80000000#32 bytes.length) t ∧ t.mem = s.mem)) ∧
  (∀ (s : State) (b c : Byte), s.status = .running →
    (∃ t, perform (.load 0x8003FFFF#32 [b]) s = .ok .none t) ∧
    (∃ t, perform (.load 0x8003FFFF#32 [b, c]) s = .fatal (.boundsViolation 0x8003FFFF#32 2) t ∧ t.mem = s.mem) ∧
    (∃ t, perform (.load 0x7FFFFFFF#32 [b, c]) s = .fatal (.boundsViolation 0x7FFFFFFF#32 2) t ∧ t.mem = s.mem))

/-- R90 and R31: a `fetch32` in bounds, aligned or not (for a misaligned address by the spec's decision D5, log entry 3),
answers the four bytes with the lowest address least significant, and writes nothing; elsewhere it is fatal; R90's
example. -/
def Obligations.FetchReadsLittleEndian : Prop :=
  (∀ (s : State) (a : Word), s.status = .running → 0x80000000 ≤ a.toNat → a.toNat ≤ 0x8003FFFC →
    ∃ v : Word, perform (.fetch32 a) s = .ok (.word v) s ∧
      v.toNat = (Memory.read s.mem (a.toNat - 0x80000000)).toNat
        + 2 ^ 8 * (Memory.read s.mem (a.toNat - 0x80000000 + 1)).toNat
        + 2 ^ 16 * (Memory.read s.mem (a.toNat - 0x80000000 + 2)).toNat
        + 2 ^ 24 * (Memory.read s.mem (a.toNat - 0x80000000 + 3)).toNat) ∧
  (∀ (s : State) (a : Word), s.status = .running → a.toNat < 0x80000000 ∨ 0x8003FFFC < a.toNat →
    perform (.fetch32 a) s = .fatal (.boundsViolation a 4) (raiseFatal (.boundsViolation a 4) s)) ∧
  ∃ t, performAll [.load 0x80000008#32 [0xEF#8, 0xBE#8, 0xAD#8, 0xDE#8], .fetch32 0x80000008#32] State.reset
    = .ok [.none, .word 0xDEADBEEF#32] t

/-- R33: what the two values of FETCH32_MISALIGNED do to a misaligned in-bounds read, and that an aligned one does not
see the parameter (the spec's decision D5, log entry 3). -/
def Obligations.MisalignedFetchFollowsItsParameter : Prop :=
  ∀ (m : Memory) (a : Word), InBounds a 4 →
    (a.toNat % 4 ≠ 0 → fetch32With .refuse m a = .refused (.misalignedFetch a)) ∧
    (a.toNat % 4 = 0 → fetch32With .refuse m a = fetch32With .bytewise m a) ∧
    fetch32With .bytewise m a = .ok (Memory.readWord m (a.toNat - 0x80000000)) ∧
    fetch32 m a = fetch32With .bytewise m a

/-- R92 and R93: in a canonical memory, what `store32` (the spec's decision D14, log entry 15) or a four-byte `load` writes
at any in-bounds address, `fetch32` reads back. At a misaligned address this rests on FETCH32_MISALIGNED = bytewise (the
spec's decision D5, log entry 3); under `refuse` R93 claims it for aligned addresses only. -/
def Obligations.LoadThenFetchRoundTrip : Prop :=
  ∀ (m : Memory) (a : Word), Memory.wf m = true → InBounds a 4 →
    (∀ v : Word, ∃ m', store32 m a v = .ok m' ∧ fetch32 m' a = .ok v) ∧
    (∀ b0 b1 b2 b3 : Byte, ∃ m', load m a [b0, b1, b2, b3] = .ok m' ∧
      fetch32 m' a = .ok (b3 ++ b2 ++ b1 ++ b0 : BitVec 32))

/-- R37: after any sequence of in-bounds `load`s, every byte is the one the most recent `load` that covered it wrote, or
the old one. -/
def Obligations.MostRecentLoadOfEachByteStands : Prop :=
  ∀ (s : State) (loads : List (Word × List Byte)), s.status = .running → Memory.wf s.mem = true →
    (∀ p ∈ loads, InBounds p.1 p.2.length) →
    ∃ vs t, performAll (loads.map fun p => .load p.1 p.2) s = .ok vs t ∧
      (∀ o : Nat, Memory.read t.mem o
        = loads.foldl (fun old p => if p.1.toNat - 0x80000000 ≤ o then p.2.getD (o - (p.1.toNat - 0x80000000)) old
            else old) (Memory.read s.mem o)) ∧
      t.regs = s.regs ∧ t.status = s.status

/-- R39 and R179: a word stored at the PC, by the host's `store32` or by `withFetchWord`, is the one the very next step
fetches; the step runs the instruction it decodes to (log entries 14 and 5; `store32` is log entry 15, D14). At a
misaligned PC this rests on FETCH32_MISALIGNED = bytewise (log entry 3, D5). -/
def Obligations.StoredWordIsTheNextFetched : Prop :=
  (∀ (s : State) (w : Word), CanStep s → Memory.wf s.mem = true →
    ∃ t, perform (.store32 (programCounter s.regs) w) s = .ok .none t ∧ fetchWord t = .ok w ∧
      step t = exec (decodeWord w) t) ∧
  (∀ (s : State) (w : Word), Memory.wf s.mem = true →
    fetchWord (s.withFetchWord 32 w.toNat) = .ok w ∧
    step (s.withFetchWord 32 w.toNat) = exec (decodeWord w) (s.withFetchWord 32 w.toNat) ∧
    decodeTableWord 32 w.toNat = some (decodeWord w))

/-! ## Machine -/

/-- R94: when the machine runs and the four bytes at the PC decode to `i`, the step at that state is `exec` of `i`. Which
instruction a word decodes to is the model's tag (log entry 5; R77 has none), and at a misaligned PC the fetch rests on
FETCH32_MISALIGNED = bytewise (log entry 3, D5). -/
def Obligations.StepRunsTheDecodedInstruction : Prop :=
  ∀ (s : State) (i : Instr), CanStep s → let o := (programCounter s.regs).toNat - 0x80000000
    decodeBytes [Memory.read s.mem o, Memory.read s.mem (o + 1), Memory.read s.mem (o + 2), Memory.read s.mem (o + 3)]
      = .ok (i, []) →
    i.wellFormed = true → step s = exec i s

/-- R77, R94 and R97: the step through the instruction tag is R94's own step, which has none, and the event of a
step, word and record and operand values, is that of the instruction its word is tagged with. -/
def Obligations.TaggedStepIsTheUndispatchedStep : Prop :=
  ∀ s : State, step s = toOutcome (stepWithEvent s) ∧
    (∀ w : Word, fetchWord s = .ok w →
      ∃ t, stepWithEvent s = .ok (t, eventOf (decodeWord w) s) ∧ exec (decodeWord w) s = .next t ∧
        perform .step s = .ok (.event (eventOf (decodeWord w) s)) t)

/-- R96: `step` executes nothing. A step that answers a next state changed the PC, by 4, and nothing else, and exposed the
decoded record of the word it fetched, immediates and all, adding none to the PC; and whatever the word in bounds at
the PC is, the step of a running machine answers a next state. The exposed record is the event's (log entry 7, D11), and
at a misaligned PC the second clause rests on FETCH32_MISALIGNED = bytewise (log entry 3, D5). -/
def Obligations.StepExecutesNothing : Prop :=
  (∀ s t : State, step s = .next t → SteppedOver s t ∧
    ∃ (w : Word) (e : LogEvent), fetchWord s = .ok w ∧ stepWithEvent s = .ok (t, e) ∧ e.decoded = decode w) ∧
  (∀ s : State, CanStep s → ∃ t, step s = .next t)

/-- R95, R151 and R152: a step whose PC is outside the fetchable addresses is fatal with the PC and 4; nothing is
logged or written, only the status becomes `Fatal` (log entry 1). -/
def Obligations.FetchOutOfBoundsIsFatal : Prop :=
  ∀ s : State, s.status = .running →
    (programCounter s.regs).toNat < 0x80000000 ∨ 0x8003FFFC < (programCounter s.regs).toNat →
    step s = .fault (.boundsViolation (programCounter s.regs) 4) ∧
    stepWithEvent s = .fault (.boundsViolation (programCounter s.regs) 4) ∧
    ∃ t, perform .step s = .fatal (.boundsViolation (programCounter s.regs) 4) t ∧ t.regs = s.regs ∧ t.mem = s.mem ∧
      t.status = .fatal (.boundsViolation (programCounter s.regs) 4)

/-- R153: once the status is `Fatal` no operation is accepted and there is no further step; only construction clears
it. A run that leaves a state is a success exactly when that state's status is not `Fatal`. What "fatal" is in a model is
the spec's decision D6 (log entry 1); that the loader is refused on any image, even one with nothing to load, is log
entry 13's choice. -/
def Obligations.FatalStatusIsTerminal : Prop :=
  (∀ (s : State) (why : Fault), s.status = .fatal why →
    step s = .refused .notRunning ∧ (∀ op : HostOp, op ≠ .reset → perform op s = .refuse .notRunning) ∧
    (∀ image : Image, runLoader image s = .refuse .notRunning) ∧
    (∀ n : Nat, (runSteps (n + 1) s).2 = .refuse .notRunning) ∧
    perform .reset s = .ok .none State.reset ∧ State.reset.status = .running) ∧
  (∀ (image : Image) (n : Nat) (t : State), (runImage image n).2.stateAfter? = some t →
    ((runImage image n).2.succeeded = true ↔ t.status = .running))

/-- R77 and R96: there is no dispatch. Every instruction has the effect of every other, and two instructions with one
word have one event. -/
def Obligations.TheInstructionDoesNotMatter : Prop :=
  ∀ (i j : Instr) (s : State), exec i s = exec j s ∧ (encode i = encode j → eventOf i s = eventOf j s)

/-- R94 and R96: with room for 4 more at the PC every instruction completes, stepping over it and changing nothing else,
on a stopped machine and outside the window too, since `exec` checks neither (log entry 21). R86: with no room, where
no step fetches, every instruction is refused by that name (the spec's decision D9, log entry 8). -/
def Obligations.EveryInstructionNeedsRoomForThePc : Prop :=
  ∀ (i : Instr) (s : State),
    (PcAdvances s → Completes i s) ∧ (¬ PcAdvances s → exec i s = .refused .pcOverflow ∧ ¬ CanStep s)

/-! ## The instructions: each completes, with its frame, and its event exposes its operands -/

/-- The six views: R94 and R96's effect, and what R64 to R75 and R78 expose. -/
def Obligations.ViewsComplete : Prop :=
  ∀ s : State, PcAdvances s →
    (∀ op rd f3 rs1 rs2 f7, Completes (.decodeR op rd f3 rs1 rs2 f7) s ∧
      ExposesR (.decodeR op rd f3 rs1 rs2 f7) s op rd f3 rs1 rs2 f7) ∧
    (∀ op rd f3 rs1 imm, Completes (.decodeI op rd f3 rs1 imm) s ∧
      ExposesI (.decodeI op rd f3 rs1 imm) s op rd f3 rs1 imm) ∧
    (∀ op f3 rs1 rs2 imm, Completes (.decodeS op f3 rs1 rs2 imm) s ∧
      ExposesS (.decodeS op f3 rs1 rs2 imm) s op f3 rs1 rs2 imm) ∧
    (∀ op f3 rs1 rs2 imm, Completes (.decodeB op f3 rs1 rs2 imm) s ∧
      (imm.getLsbD 0 = false → ExposesB (.decodeB op f3 rs1 rs2 imm) s op f3 rs1 rs2 imm)) ∧
    (∀ op rd imm, Completes (.decodeU op rd imm) s ∧ ExposesU (.decodeU op rd imm) s op rd imm) ∧
    (∀ op rd imm, Completes (.decodeJ op rd imm) s ∧
      (imm.getLsbD 0 = false → ExposesJ (.decodeJ op rd imm) s op rd imm))

/-- LUI, AUIPC, JAL and JALR: no register is written, no jump is made (R96). -/
def Obligations.UpperAndJumpsComplete : Prop :=
  ∀ (s : State) (rd : BitVec 5), PcAdvances s →
    (∀ imm, Completes (.lui rd imm) s ∧ ExposesU (.lui rd imm) s 0x37#7 rd imm) ∧
    (∀ imm, Completes (.auipc rd imm) s ∧ ExposesU (.auipc rd imm) s 0x17#7 rd imm) ∧
    (∀ imm, Completes (.jal rd imm) s ∧ (imm.getLsbD 0 = false → ExposesJ (.jal rd imm) s 0x6F#7 rd imm)) ∧
    (∀ rs1 imm, Completes (.jalr rd rs1 imm) s ∧ ExposesI (.jalr rd rs1 imm) s 0x67#7 rd 0#3 rs1 imm)

/-- BEQ, BNE, BLT, BGE, BLTU and BGEU: no branch is taken (R96). -/
def Obligations.BranchesComplete : Prop :=
  ∀ (s : State) (rs1 rs2 : BitVec 5) (imm : BitVec 13), PcAdvances s →
    (Completes (.beq rs1 rs2 imm) s ∧ Completes (.bne rs1 rs2 imm) s ∧ Completes (.blt rs1 rs2 imm) s ∧
      Completes (.bge rs1 rs2 imm) s ∧ Completes (.bltu rs1 rs2 imm) s ∧ Completes (.bgeu rs1 rs2 imm) s) ∧
    (imm.getLsbD 0 = false →
      ExposesB (.beq rs1 rs2 imm) s 0x63#7 0#3 rs1 rs2 imm ∧ ExposesB (.bne rs1 rs2 imm) s 0x63#7 1#3 rs1 rs2 imm ∧
      ExposesB (.blt rs1 rs2 imm) s 0x63#7 4#3 rs1 rs2 imm ∧ ExposesB (.bge rs1 rs2 imm) s 0x63#7 5#3 rs1 rs2 imm ∧
      ExposesB (.bltu rs1 rs2 imm) s 0x63#7 6#3 rs1 rs2 imm ∧ ExposesB (.bgeu rs1 rs2 imm) s 0x63#7 7#3 rs1 rs2 imm)

/-- LB, LH, LW, LBU and LHU: memory is not accessed and no register is written (R96). -/
def Obligations.LoadInstructionsComplete : Prop :=
  ∀ (s : State) (rd rs1 : BitVec 5) (imm : BitVec 12), PcAdvances s →
    (Completes (.lb rd rs1 imm) s ∧ Completes (.lh rd rs1 imm) s ∧ Completes (.lw rd rs1 imm) s ∧
      Completes (.lbu rd rs1 imm) s ∧ Completes (.lhu rd rs1 imm) s) ∧
    ExposesI (.lb rd rs1 imm) s 0x03#7 rd 0#3 rs1 imm ∧ ExposesI (.lh rd rs1 imm) s 0x03#7 rd 1#3 rs1 imm ∧
    ExposesI (.lw rd rs1 imm) s 0x03#7 rd 2#3 rs1 imm ∧ ExposesI (.lbu rd rs1 imm) s 0x03#7 rd 4#3 rs1 imm ∧
    ExposesI (.lhu rd rs1 imm) s 0x03#7 rd 5#3 rs1 imm

/-- SB, SH and SW: no memory byte is written (R96). -/
def Obligations.StoreInstructionsComplete : Prop :=
  ∀ (s : State) (rs1 rs2 : BitVec 5) (imm : BitVec 12), PcAdvances s →
    (Completes (.sb rs1 rs2 imm) s ∧ Completes (.sh rs1 rs2 imm) s ∧ Completes (.sw rs1 rs2 imm) s) ∧
    ExposesS (.sb rs1 rs2 imm) s 0x23#7 0#3 rs1 rs2 imm ∧ ExposesS (.sh rs1 rs2 imm) s 0x23#7 1#3 rs1 rs2 imm ∧
    ExposesS (.sw rs1 rs2 imm) s 0x23#7 2#3 rs1 rs2 imm

/-- ADDI, SLTI, SLTIU, XORI, ORI, ANDI, SLLI, SRLI and SRAI: no register is written (R96). Of the shifts the
amount is the field `rs2` and `imm_i[4:0]`, and `imm_i` as a whole has `funct7` above it, bit 10 set for SRAI (R128 to
R130). -/
def Obligations.RegisterImmediatesComplete : Prop :=
  ∀ (s : State) (rd rs1 : BitVec 5), PcAdvances s →
    (∀ imm,
      (Completes (.addi rd rs1 imm) s ∧ Completes (.slti rd rs1 imm) s ∧ Completes (.sltiu rd rs1 imm) s ∧
        Completes (.xori rd rs1 imm) s ∧ Completes (.ori rd rs1 imm) s ∧ Completes (.andi rd rs1 imm) s) ∧
      ExposesI (.addi rd rs1 imm) s 0x13#7 rd 0#3 rs1 imm ∧ ExposesI (.slti rd rs1 imm) s 0x13#7 rd 2#3 rs1 imm ∧
      ExposesI (.sltiu rd rs1 imm) s 0x13#7 rd 3#3 rs1 imm ∧ ExposesI (.xori rd rs1 imm) s 0x13#7 rd 4#3 rs1 imm ∧
      ExposesI (.ori rd rs1 imm) s 0x13#7 rd 6#3 rs1 imm ∧ ExposesI (.andi rd rs1 imm) s 0x13#7 rd 7#3 rs1 imm) ∧
    (∀ shamt,
      (Completes (.slli rd rs1 shamt) s ∧ Completes (.srli rd rs1 shamt) s ∧ Completes (.srai rd rs1 shamt) s) ∧
      ExposesR (.slli rd rs1 shamt) s 0x13#7 rd 1#3 rs1 shamt 0x00#7 ∧
      ExposesR (.srli rd rs1 shamt) s 0x13#7 rd 5#3 rs1 shamt 0x00#7 ∧
      ExposesR (.srai rd rs1 shamt) s 0x13#7 rd 5#3 rs1 shamt 0x20#7 ∧
      ExposesI (.slli rd rs1 shamt) s 0x13#7 rd 1#3 rs1 (0x00#7 ++ shamt) ∧
      ExposesI (.srli rd rs1 shamt) s 0x13#7 rd 5#3 rs1 (0x00#7 ++ shamt) ∧
      ExposesI (.srai rd rs1 shamt) s 0x13#7 rd 5#3 rs1 (0x20#7 ++ shamt) ∧
      (eventOf (.slli rd rs1 shamt) s).decoded.immI = shamt.setWidth 32 ∧
      (eventOf (.srli rd rs1 shamt) s).decoded.immI = shamt.setWidth 32 ∧
      (eventOf (.srai rd rs1 shamt) s).decoded.immI.extractLsb' 0 5 = shamt ∧
      (eventOf (.srai rd rs1 shamt) s).decoded.immI.getLsbD 10 = true)

/-- ADD, SUB, SLL, SLT, SLTU, XOR, SRL, SRA, OR and AND: both operands are read, no register is written (R78, R96). -/
def Obligations.RegisterRegistersComplete : Prop :=
  ∀ (s : State) (rd rs1 rs2 : BitVec 5), PcAdvances s →
    (Completes (.add rd rs1 rs2) s ∧ Completes (.sub rd rs1 rs2) s ∧ Completes (.sll rd rs1 rs2) s ∧
      Completes (.slt rd rs1 rs2) s ∧ Completes (.sltu rd rs1 rs2) s ∧ Completes (.xor rd rs1 rs2) s ∧
      Completes (.srl rd rs1 rs2) s ∧ Completes (.sra rd rs1 rs2) s ∧ Completes (.or rd rs1 rs2) s ∧
      Completes (.and rd rs1 rs2) s) ∧
    ExposesR (.add rd rs1 rs2) s 0x33#7 rd 0#3 rs1 rs2 0x00#7 ∧ ExposesR (.sub rd rs1 rs2) s 0x33#7 rd 0#3 rs1 rs2 0x20#7 ∧
    ExposesR (.sll rd rs1 rs2) s 0x33#7 rd 1#3 rs1 rs2 0x00#7 ∧ ExposesR (.slt rd rs1 rs2) s 0x33#7 rd 2#3 rs1 rs2 0x00#7 ∧
    ExposesR (.sltu rd rs1 rs2) s 0x33#7 rd 3#3 rs1 rs2 0x00#7 ∧ ExposesR (.xor rd rs1 rs2) s 0x33#7 rd 4#3 rs1 rs2 0x00#7 ∧
    ExposesR (.srl rd rs1 rs2) s 0x33#7 rd 5#3 rs1 rs2 0x00#7 ∧ ExposesR (.sra rd rs1 rs2) s 0x33#7 rd 5#3 rs1 rs2 0x20#7 ∧
    ExposesR (.or rd rs1 rs2) s 0x33#7 rd 6#3 rs1 rs2 0x00#7 ∧ ExposesR (.and rd rs1 rs2) s 0x33#7 rd 7#3 rs1 rs2 0x00#7

/-- FENCE, ECALL and EBREAK: nothing is ordered, no trap is raised (R38, R96, R157). -/
def Obligations.FenceAndSystemComplete : Prop :=
  ∀ s : State, PcAdvances s →
    (∀ rd rs1 imm, Completes (.fence rd rs1 imm) s ∧ ExposesI (.fence rd rs1 imm) s 0x0F#7 rd 0#3 rs1 imm) ∧
    (Completes .ecall s ∧ ExposesI .ecall s 0x73#7 0#5 0#3 0#5 0#12) ∧
    (Completes .ebreak s ∧ ExposesI .ebreak s 0x73#7 0#5 0#3 0#5 1#12)

/-! ## Invariants -/

/-- R18: every step keeps the PC a multiple of 4 between `BASE` and `MEM_END`, the machine running, and the state
invariant. -/
def Obligations.StepKeepsThePcInvariant : Prop :=
  ∀ s t : State, step s = .next t → PcInvariant s → StateInvariant s →
    PcInvariant t ∧ StateInvariant t ∧ t.status = .running

/-- R18 and R24: the invariants hold after construction. -/
def Obligations.InvariantsHoldAtReset : Prop :=
  PcInvariant State.reset ∧ StateInvariant State.reset ∧ State.reset.status = .running

/-- Every operation of the host, completed or fatal, leaves memory in its canonical form inside the buffer and nothing stored in slot 0
(R13, R25; log entry 11); so does the loader. -/
def Obligations.HostOperationsKeepTheStateInvariant : Prop :=
  (∀ (op : HostOp) (s t : State), StateInvariant s → (perform op s).stateAfter? = some t → StateInvariant t) ∧
  (∀ (image : Image) (s t : State), StateInvariant s → (runLoader image s).stateAfter? = some t → StateInvariant t)

/-! ## The run -/

/-- R100: from any state whose PC is at `BASE`, whatever memory and the registers hold, `k` steps leave the PC at
`0x80000000 + 4k` and nothing else changed, up to 65,536; every longer run ends fatally at `0x80040000` (runs of more than one
step are the spec's extension D10, log entry 18). -/
def Obligations.RunLengthIsBoundedByTheWindow : Prop :=
  ∀ s : State, s.status = .running → programCounter s.regs = 0x80000000#32 →
    (∀ k : Nat, k ≤ 65536 → ∃ t, Sys2Proof.core.run k s = .next t ∧
      (programCounter t.regs).toNat = 0x80000000 + 4 * k ∧ (∀ i : BitVec 5, readX t.regs i = readX s.regs i) ∧
      t.mem = s.mem ∧ t.status = .running) ∧
    (∀ k : Nat, 65536 < k → Sys2Proof.core.run k s = .fault (.boundsViolation 0x80040000#32 4))

/-- R97, R99 and R100: the events of a run, in order: the `i`-th is of the word at `0x80000000 + 4i`, with its record
and the values of the two registers it names. -/
def Obligations.RunEmitsOneEventAStep : Prop :=
  ∀ s : State, s.status = .running → programCounter s.regs = 0x80000000#32 →
    ∀ k : Nat, k ≤ 65536 →
      (runSteps k s).1 = (List.range k).map (fun i =>
        let w := Memory.readWord s.mem (4 * i)
        LogEvent.mk (BitVec.ofNat 32 (0x80000000 + 4 * i)) w (decode w) (readX s.regs (decode w).rs1)
          (readX s.regs (decode w).rs2)) ∧
      (runSteps k s).2.succeeded = true

/-- R96 and R101: the control flow sees neither registers nor memory. Two machines with one PC and one status step
alike, to one next PC. -/
def Obligations.ControlFlowIgnoresRegistersAndMemory : Prop :=
  ∀ s s' : State, programCounter s.regs = programCounter s'.regs → s.status = s'.status →
    (∃ t t', step s = .next t ∧ step s' = .next t' ∧ programCounter t.regs = programCounter t'.regs) ∨
    (∃ f, step s = .fault f ∧ step s' = .fault f) ∨ (∃ r, step s = .refused r ∧ step s' = .refused r)

/-! ## The host's software -/

/-- R176: the loader is `load` of each segment that starts at or above `BASE`, in order; the others are skipped. -/
def Obligations.LoaderLoadsSegmentsFromBaseUp : Prop :=
  ∀ (segments : List (Word × List Byte)) (s : State), s.status = .running →
    let loaded := runLoader (.parsed (segments.map fun p => .segment p.1 p.2)) s
    let written := performAll
      ((segments.filter fun p => decide (0x80000000 ≤ p.1.toNat)).map fun p => .load p.1 p.2) s
    loaded.stateAfter? = written.stateAfter? ∧ loaded.succeeded = written.succeeded

/-- R154, R177 and R178: an image that cannot be parsed, or a segment that cannot be read, is fatal; the segments
before it stay (log entry 16); the PC does not move for any image (R172). -/
def Obligations.LoaderFailureIsFatal : Prop :=
  (∀ s : State, s.status = .running →
    runLoader .unparsable s = .fatal .malformedImage (raiseFatal .malformedImage s)) ∧
  (∀ (before after : List LoadItem) (s t : State), s.status = .running →
    runLoader (.parsed before) s = .ok () t →
    runLoader (.parsed (before ++ .unreadable :: after)) s = .fatal .malformedImage (raiseFatal .malformedImage t)) ∧
  (∀ (image : Image) (s t : State), (runLoader image s).stateAfter? = some t → t.regs = s.regs)

/-- R166: the dumps only read. R164 and R165: the memory dump has the rows asked for, none past the buffer, at
ascending addresses, each showing its four words; the register dump shows `x0` to `x30` and the PC. -/
def Obligations.DumpsOnlyRead : Prop :=
  ∀ s : State, s.status = .running →
    (∀ rows : Nat, ∃ l, perform (.memoryDump rows) s = .ok (.rows l) s ∧ l.length = min rows 16384 ∧
      ∀ (r : Nat) (h : r < l.length), (l[r]).address = BitVec.ofNat 32 (0x80000000 + 16 * r) ∧
        (l[r]).word0 = Memory.readWord s.mem (16 * r) ∧ (l[r]).word1 = Memory.readWord s.mem (16 * r + 4) ∧
        (l[r]).word2 = Memory.readWord s.mem (16 * r + 8) ∧ (l[r]).word3 = Memory.readWord s.mem (16 * r + 12)) ∧
    ∃ d, perform .registerDump s = .ok (.registers d) s ∧ d.gprs.length = 31 ∧ d.pc = programCounter s.regs ∧
      ∀ (i : Nat) (h : i < d.gprs.length), d.gprs[i] = readX s.regs (BitVec.ofNat 5 i)

/-- R166 and R93: after a `load` at `BASE`, a memory dump of no more than the loaded bytes reproduces them byte for
byte. -/
def Obligations.DumpReproducesTheLoadedBytes : Prop :=
  ∀ (s t : State) (bytes : List Byte) (rows : Nat), s.status = .running → Memory.wf s.mem = true →
    16 * rows ≤ bytes.length →
    perform (.load 0x80000000#32 bytes) s = .ok .none t →
    (memoryDump t.mem rows).flatMap (fun row => Codec.bytesOfWord row.word0 ++ Codec.bytesOfWord row.word1
      ++ Codec.bytesOfWord row.word2 ++ Codec.bytesOfWord row.word3) = bytes.take (16 * rows)
end

