-- ==== Sys2Proof/Laws/Codec.lean ====
section
/-! SUPPORT. What the codec and the byte order do to single bits, said once: later proofs cite these and never unfold
`bitrange` or `signExt`. -/

namespace Sys2Proof.Codec

/-- Every bit of `bitrange`: the word's bit `lo + i` below the field's width, 0 above. -/
theorem bitrange_getLsbD (w : Word) {hi lo : Nat} (h : lo ≤ hi) (h' : hi < 32) (i : Nat) :
    (bitrange w hi lo).getLsbD i = (decide (i ≤ hi - lo) && w.getLsbD (lo + i)) := by
  have hi32 : hi - lo + 1 ≤ 32 := by omega
  simp only [bitrange, BitVec.getLsbD_and, BitVec.getLsbD_ushiftRight, BitVec.getLsbD_ofNat,
    Nat.testBit_two_pow_sub_one]
  by_cases hc : i ≤ hi - lo
  · simp [hc, show i < 32 by omega, show i < hi - lo + 1 by omega]
  · simp [hc, show ¬ i < hi - lo + 1 by omega]

/-- `bitrange` cut to its own width is the bit-vector slice. -/
theorem bitrange_setWidth (w : Word) {hi lo n : Nat} (h : lo ≤ hi) (h' : hi < 32) (hn : n = hi - lo + 1) :
    (bitrange w hi lo).setWidth n = w.extractLsb' lo n := by
  subst hn
  ext i hi'
  have : i ≤ hi - lo := by omega
  rw [← BitVec.getLsbD_eq_getElem, ← BitVec.getLsbD_eq_getElem]
  rw [BitVec.getLsbD_setWidth, bitrange_getLsbD w h h', BitVec.getLsbD_extractLsb']
  simp [this]

/-- Every bit of `signExt` on a value that fits its width: the value's own bit below the width, the sign bit above. -/
theorem signExt_getLsbD (v : Word) {width : Nat} (h1 : 1 ≤ width) (h2 : width ≤ 32)
    (fits : ∀ j, width ≤ j → v.getLsbD j = false) (i : Nat) :
    (signExt v width).getLsbD i
      = if i < width then v.getLsbD i else (decide (i < 32) && v.getLsbD (width - 1)) := by
  unfold signExt
  split
  · rename_i hs
    rw [BitVec.getLsbD_or, BitVec.getLsbD_shiftLeft, BitVec.getLsbD_allOnes, hs]
    by_cases hc : i < width
    · simp [hc]
    · rw [fits i (by omega)]
      by_cases h32 : i < 32
      · simp [hc, h32]; omega
      · simp [hc, h32]
  · rename_i hs
    have hs' : v.getLsbD (width - 1) = false := by simpa using hs
    by_cases hc : i < width
    · simp [hc]
    · simp [hc, hs', fits i (by omega)]

/-- The four bytes of a word, put together again, are the word (R31, R92). -/
theorem wordOfBytes_bytesOfWord (v : Word) :
    wordOfBytes (v.extractLsb' 0 8) (v.extractLsb' 8 8) (v.extractLsb' 16 8) (v.extractLsb' 24 8) = v := by
  unfold wordOfBytes
  apply BitVec.eq_of_getLsbD_eq
  intro i hi
  simp only [BitVec.getLsbD_append, BitVec.getLsbD_extractLsb']
  by_cases h8 : i < 8
  · simp [h8]
  · by_cases h16 : i < 16
    · simp [h8, show i - 8 < 8 by omega, show 8 + (i - 8) = i by omega]
    · by_cases h24 : i < 24
      · simp [h8, show ¬ i - 8 < 8 by omega, show i - 8 - 8 < 8 by omega, show 16 + (i - 8 - 8) = i by omega]
      · simp [h8, show ¬ i - 8 < 8 by omega, show ¬ i - 8 - 8 < 8 by omega, show i - 8 - 8 - 8 < 8 by omega,
          show 24 + (i - 8 - 8 - 8) = i by omega]

end Sys2Proof.Codec

namespace Sys2Proof

/-- The opcode output is the word's low seven bits. -/
theorem decode_opcode (w : Word) : (decode w).opcode = w.extractLsb' 0 7 :=
  Codec.bitrange_setWidth w (by omega) (by omega) rfl

/-! ## The opcode field of each layout of the encoder -/

/-- The low bits of a concatenation are those of its last part. -/
theorem extractLsb'_zero_append {m n : Nat} (x : BitVec m) (y : BitVec n) : (x ++ y).extractLsb' 0 n = y := by
  ext i hi
  simp [BitVec.getLsbD_append, hi]

@[simp] theorem opcode_encodeR (op rd f3 rs1 rs2 f7) : (decode (encodeR op rd f3 rs1 rs2 f7)).opcode = op := by
  rw [decode_opcode]; exact extractLsb'_zero_append _ op
@[simp] theorem opcode_encodeI (op rd f3 rs1 imm) : (decode (encodeI op rd f3 rs1 imm)).opcode = op := by
  rw [decode_opcode]; exact extractLsb'_zero_append _ op
@[simp] theorem opcode_encodeS (op f3 rs1 rs2 imm) : (decode (encodeS op f3 rs1 rs2 imm)).opcode = op := by
  rw [decode_opcode]; exact extractLsb'_zero_append _ op
@[simp] theorem opcode_encodeB (op f3 rs1 rs2 imm) : (decode (encodeB op f3 rs1 rs2 imm)).opcode = op := by
  rw [decode_opcode]; exact extractLsb'_zero_append _ op
@[simp] theorem opcode_encodeU (op rd imm) : (decode (encodeU op rd imm)).opcode = op := by
  rw [decode_opcode]; exact extractLsb'_zero_append _ op
@[simp] theorem opcode_encodeJ (op rd imm) : (decode (encodeJ op rd imm)).opcode = op := by
  rw [decode_opcode]; exact extractLsb'_zero_append _ op

end Sys2Proof
end

