-- ==== Sys2Proof/Laws/Memory.lean ====
section
/-! SUPPORT. The laws of memory: read after write, and that every memory operation keeps the canonical form
(log entry 11). -/

namespace Sys2Proof.Machine.Memory

@[simp] theorem read_nil (o : Nat) : read [] o = unlistedByte := rfl

theorem read_cons (k : Nat) (b : Byte) (m : Memory) (o : Nat) :
    read ((k, b) :: m) o = if k = o then b else read m o := rfl

theorem wfFrom_cons {lo k : Nat} {b : Byte} {m : Memory} :
    wfFrom lo ((k, b) :: m) = true ↔ lo ≤ k ∧ k < Config.memSize ∧ b ≠ unlistedByte ∧ wfFrom (k + 1) m = true := by
  simp [wfFrom, and_assoc]

/-- A canonical memory from `lo` on is canonical from any lower offset. -/
theorem wfFrom_mono {lo lo' : Nat} (h : lo' ≤ lo) : ∀ {m : Memory}, wfFrom lo m = true → wfFrom lo' m = true
  | [], _ => rfl
  | (_, _) :: _, hm => by
    rw [wfFrom_cons] at hm ⊢
    exact ⟨le_trans h hm.1, hm.2⟩

/-- Below its first listed offset a canonical memory reads as unlisted. -/
theorem read_below {lo o : Nat} (h : o < lo) : ∀ {m : Memory}, wfFrom lo m = true → read m o = unlistedByte
  | [], _ => rfl
  | (k, b) :: m, hm => by
    rw [wfFrom_cons] at hm
    rw [read_cons, if_neg (by omega)]
    exact read_below (by omega : o < k + 1) hm.2.2.2

/-- A byte outside the buffer reads as unlisted: a canonical memory lists nothing there. -/
theorem read_outside {lo o : Nat} (h : Config.memSize ≤ o) : ∀ {m : Memory}, wfFrom lo m = true →
    read m o = unlistedByte
  | [], _ => rfl
  | (k, b) :: m, hm => by
    rw [wfFrom_cons] at hm
    rw [read_cons, if_neg (by omega)]
    exact read_outside h hm.2.2.2

/-- Writing inside the buffer keeps the canonical form. -/
theorem wfFrom_write {lo o : Nat} (hlo : lo ≤ o) (ho : o < Config.memSize) (b : Byte) :
    ∀ {m : Memory}, wfFrom lo m = true → wfFrom lo (write m o b) = true
  | [], _ => by
    unfold write
    split
    · rfl
    · rw [wfFrom_cons]; exact ⟨hlo, ho, by assumption, rfl⟩
  | (k, c) :: m, hm => by
    rw [wfFrom_cons] at hm
    obtain ⟨h1, h2, h3, h4⟩ := hm
    unfold write
    split
    · split
      · rw [wfFrom_cons]; exact ⟨h1, h2, h3, h4⟩
      · rw [wfFrom_cons, wfFrom_cons]; exact ⟨hlo, ho, by assumption, by omega, h2, h3, h4⟩
    · split
      · split
        · exact wfFrom_mono (by omega) h4
        · rw [wfFrom_cons]
          refine ⟨hlo, ho, by assumption, ?_⟩
          exact wfFrom_mono (by omega) h4
      · rw [wfFrom_cons]
        exact ⟨h1, h2, h3, wfFrom_write (by omega) ho b h4⟩

theorem wf_write {m : Memory} {o : Nat} (ho : o < Config.memSize) (b : Byte) (h : wf m = true) :
    wf (write m o b) = true := wfFrom_write (Nat.zero_le o) ho b h

/-- Writing a byte range inside the buffer keeps the canonical form. -/
theorem wf_writeBytes (bytes : List Byte) : ∀ {m : Memory} {o : Nat}, o + bytes.length ≤ Config.memSize →
    wf m = true → wf (writeBytes m o bytes) = true := by
  induction bytes with
  | nil => intro m o _ h; exact h
  | cons b bs ih =>
    intro m o ho h
    simp only [List.length_cons] at ho
    exact ih (by omega) (wf_write (by omega) b h)

/-- Read after write, in a canonical memory: the written byte at its offset, the old byte elsewhere. -/
theorem read_write {lo : Nat} (o : Nat) (b : Byte) (p : Nat) :
    ∀ {m : Memory}, wfFrom lo m = true → read (write m o b) p = if p = o then b else read m p
  | [], _ => by
    unfold write
    split
    · simp_all
    · simp [read_cons, eq_comm]
  | (k, c) :: m, hm => by
    rw [wfFrom_cons] at hm
    obtain ⟨h1, h2, h3, h4⟩ := hm
    unfold write
    split
    · rename_i hlt
      split
      · rename_i hb
        by_cases hp : p = o
        · subst hp
          rw [read_cons, if_neg (by omega), if_pos rfl, hb]
          exact read_below (by omega) h4
        · rw [if_neg hp]
      · rw [read_cons]
        simp only [eq_comm]
    · split
      · rename_i hk
        split
        · rename_i hb
          by_cases hp : p = o
          · subst hp
            rw [if_pos rfl, hb, hk]
            exact read_below (by omega) h4
          · rw [if_neg hp, read_cons, if_neg (by omega)]
        · rw [read_cons, read_cons]
          by_cases hp : p = o
          · simp [hp]
          · rw [if_neg (by omega), if_neg hp, if_neg (by omega)]
      · rw [read_cons, read_cons, read_write o b p h4]
        by_cases hkp : k = p
        · subst hkp; rw [if_pos rfl, if_neg (by omega), if_pos rfl]
        · rw [if_neg hkp, if_neg hkp]

theorem read_write_of_wf {m : Memory} (h : wf m = true) (o : Nat) (b : Byte) (p : Nat) :
    read (write m o b) p = if p = o then b else read m p := read_write o b p h

/-- Everything the byte-range write does to a read, in a canonical memory: the byte of the range if the offset is in it, else the old byte. -/
theorem read_writeBytes (bytes : List Byte) : ∀ {m : Memory} {o : Nat} (p : Nat), o + bytes.length ≤ Config.memSize →
    wf m = true →
    read (writeBytes m o bytes) p = if o ≤ p then bytes.getD (p - o) (read m p) else read m p := by
  induction bytes with
  | nil => intro m o p _ _; simp [writeBytes]
  | cons b bs ih =>
    intro m o p ho h
    simp only [List.length_cons] at ho
    rw [writeBytes, ih p (by omega) (wf_write (by omega) b h), read_write_of_wf h]
    by_cases hp : p = o
    · subst hp; simp
    · rw [if_neg hp]
      by_cases hle : o ≤ p
      · obtain ⟨d, rfl⟩ : ∃ d, p = o + 1 + d := ⟨p - (o + 1), by omega⟩
        rw [if_pos (by omega), if_pos hle, show o + 1 + d - o = d + 1 by omega, show o + 1 + d - (o + 1) = d by omega,
          List.getD_cons_succ]
      · rw [if_neg (by omega), if_neg hle]

/-- Two canonical memories that read alike are equal: the form is canonical. -/
theorem wfFrom_ext {lo : Nat} : ∀ {m n : Memory}, wfFrom lo m = true → wfFrom lo n = true →
    (∀ o, read m o = read n o) → m = n
  | [], [], _, _, _ => rfl
  | [], (k, b) :: n, _, hn, h => by
    rw [wfFrom_cons] at hn
    have := h k
    rw [read_nil, read_cons, if_pos rfl] at this
    exact absurd this.symm hn.2.2.1
  | (k, b) :: m, [], hm, _, h => by
    rw [wfFrom_cons] at hm
    have := h k
    rw [read_nil, read_cons, if_pos rfl] at this
    exact absurd this hm.2.2.1
  | (k, b) :: m, (j, c) :: n, hm, hn, h => by
    rw [wfFrom_cons] at hm hn
    have hk := h k
    have hj := h j
    rw [read_cons, read_cons] at hk hj
    have hkj : k = j := by
      rcases lt_trichotomy k j with hlt | heq | hgt
      · rw [if_pos rfl, if_neg (by omega), read_below (by omega) hn.2.2.2] at hk
        exact absurd hk hm.2.2.1
      · exact heq
      · rw [if_neg (by omega), if_pos rfl, read_below (by omega) hm.2.2.2] at hj
        exact absurd hj.symm hn.2.2.1
    subst hkj
    rw [if_pos rfl, if_pos rfl] at hk
    subst hk
    congr 1
    refine wfFrom_ext hm.2.2.2 hn.2.2.2 fun o => ?_
    by_cases ho : k = o
    · subst ho
      rw [read_below (by omega) hm.2.2.2, read_below (by omega) hn.2.2.2]
    · have := h o
      rwa [read_cons, read_cons, if_neg ho, if_neg ho] at this

end Sys2Proof.Machine.Memory
end

