-- ==== Sys2Proof/Laws/PerInstr.lean ====
section
/-! SUPPORT. The per-instruction family EncodeFields: the opcode field of an instruction's word is its row's. -/

namespace Sys2Proof.Laws.EncodeFields

/-- The opcode of an instruction's row (spec/45_rv32i_opcode_classes.md R103), or the one a view carries. -/
def opcodeOf : Instr → BitVec 7
  | .decodeR op .. | .decodeI op .. | .decodeS op .. | .decodeB op .. | .decodeU op .. | .decodeJ op .. => op
  | .lui .. => 0x37#7
  | .auipc .. => 0x17#7
  | .jal .. => 0x6F#7
  | .jalr .. => 0x67#7
  | .beq .. | .bne .. | .blt .. | .bge .. | .bltu .. | .bgeu .. => 0x63#7
  | .lb .. | .lh .. | .lw .. | .lbu .. | .lhu .. => 0x03#7
  | .sb .. | .sh .. | .sw .. => 0x23#7
  | .addi .. | .slti .. | .sltiu .. | .xori .. | .ori .. | .andi .. | .slli .. | .srli .. | .srai .. => 0x13#7
  | .add .. | .sub .. | .sll .. | .slt .. | .sltu .. | .xor .. | .srl .. | .sra .. | .or .. | .and .. => 0x33#7
  | .fence .. => 0x0F#7
  | .ecall | .ebreak => 0x73#7

/-- The decoder reads from an instruction's word the opcode of its row. -/
def Statement (i : Instr) : Prop := (decode (encode i)).opcode = opcodeOf i

theorem decodeR (opcode rd funct3 rs1 rs2 funct7) : Statement (.decodeR opcode rd funct3 rs1 rs2 funct7) := opcode_encodeR ..
theorem decodeI (opcode rd funct3 rs1 imm) : Statement (.decodeI opcode rd funct3 rs1 imm) := opcode_encodeI ..
theorem decodeS (opcode funct3 rs1 rs2 imm) : Statement (.decodeS opcode funct3 rs1 rs2 imm) := opcode_encodeS ..
theorem decodeB (opcode funct3 rs1 rs2 imm) : Statement (.decodeB opcode funct3 rs1 rs2 imm) := opcode_encodeB ..
theorem decodeU (opcode rd imm) : Statement (.decodeU opcode rd imm) := opcode_encodeU ..
theorem decodeJ (opcode rd imm) : Statement (.decodeJ opcode rd imm) := opcode_encodeJ ..
theorem lui (rd imm) : Statement (.lui rd imm) := opcode_encodeU ..
theorem auipc (rd imm) : Statement (.auipc rd imm) := opcode_encodeU ..
theorem jal (rd imm) : Statement (.jal rd imm) := opcode_encodeJ ..
theorem jalr (rd rs1 imm) : Statement (.jalr rd rs1 imm) := opcode_encodeI ..
theorem beq (rs1 rs2 imm) : Statement (.beq rs1 rs2 imm) := opcode_encodeB ..
theorem bne (rs1 rs2 imm) : Statement (.bne rs1 rs2 imm) := opcode_encodeB ..
theorem blt (rs1 rs2 imm) : Statement (.blt rs1 rs2 imm) := opcode_encodeB ..
theorem bge (rs1 rs2 imm) : Statement (.bge rs1 rs2 imm) := opcode_encodeB ..
theorem bltu (rs1 rs2 imm) : Statement (.bltu rs1 rs2 imm) := opcode_encodeB ..
theorem bgeu (rs1 rs2 imm) : Statement (.bgeu rs1 rs2 imm) := opcode_encodeB ..
theorem lb (rd rs1 imm) : Statement (.lb rd rs1 imm) := opcode_encodeI ..
theorem lh (rd rs1 imm) : Statement (.lh rd rs1 imm) := opcode_encodeI ..
theorem lw (rd rs1 imm) : Statement (.lw rd rs1 imm) := opcode_encodeI ..
theorem lbu (rd rs1 imm) : Statement (.lbu rd rs1 imm) := opcode_encodeI ..
theorem lhu (rd rs1 imm) : Statement (.lhu rd rs1 imm) := opcode_encodeI ..
theorem sb (rs1 rs2 imm) : Statement (.sb rs1 rs2 imm) := opcode_encodeS ..
theorem sh (rs1 rs2 imm) : Statement (.sh rs1 rs2 imm) := opcode_encodeS ..
theorem sw (rs1 rs2 imm) : Statement (.sw rs1 rs2 imm) := opcode_encodeS ..
theorem addi (rd rs1 imm) : Statement (.addi rd rs1 imm) := opcode_encodeI ..
theorem slti (rd rs1 imm) : Statement (.slti rd rs1 imm) := opcode_encodeI ..
theorem sltiu (rd rs1 imm) : Statement (.sltiu rd rs1 imm) := opcode_encodeI ..
theorem xori (rd rs1 imm) : Statement (.xori rd rs1 imm) := opcode_encodeI ..
theorem ori (rd rs1 imm) : Statement (.ori rd rs1 imm) := opcode_encodeI ..
theorem andi (rd rs1 imm) : Statement (.andi rd rs1 imm) := opcode_encodeI ..
theorem slli (rd rs1 shamt) : Statement (.slli rd rs1 shamt) := opcode_encodeR ..
theorem srli (rd rs1 shamt) : Statement (.srli rd rs1 shamt) := opcode_encodeR ..
theorem srai (rd rs1 shamt) : Statement (.srai rd rs1 shamt) := opcode_encodeR ..
theorem add (rd rs1 rs2) : Statement (.add rd rs1 rs2) := opcode_encodeR ..
theorem sub (rd rs1 rs2) : Statement (.sub rd rs1 rs2) := opcode_encodeR ..
theorem sll (rd rs1 rs2) : Statement (.sll rd rs1 rs2) := opcode_encodeR ..
theorem slt (rd rs1 rs2) : Statement (.slt rd rs1 rs2) := opcode_encodeR ..
theorem sltu (rd rs1 rs2) : Statement (.sltu rd rs1 rs2) := opcode_encodeR ..
theorem xor (rd rs1 rs2) : Statement (.xor rd rs1 rs2) := opcode_encodeR ..
theorem srl (rd rs1 rs2) : Statement (.srl rd rs1 rs2) := opcode_encodeR ..
theorem sra (rd rs1 rs2) : Statement (.sra rd rs1 rs2) := opcode_encodeR ..
theorem or (rd rs1 rs2) : Statement (.or rd rs1 rs2) := opcode_encodeR ..
theorem and (rd rs1 rs2) : Statement (.and rd rs1 rs2) := opcode_encodeR ..
theorem fence (rd rs1 imm) : Statement (.fence rd rs1 imm) := opcode_encodeI ..
theorem ecall : Statement .ecall := by unfold Statement; decide
theorem ebreak : Statement .ebreak := by unfold Statement; decide

end Sys2Proof.Laws.EncodeFields
end

