-- ==== Sys2Proof/Laws/State.lean ====
section
/-! SUPPORT. One lemma per field per update of the state and the register file, so that no later proof unfolds a record
update or an accessor. -/

namespace Sys2Proof.Machine

/-! ## The status update -/

@[simp] theorem raiseFatal_regs (f : Fault) (s : State) : (raiseFatal f s).regs = s.regs := rfl
@[simp] theorem raiseFatal_mem (f : Fault) (s : State) : (raiseFatal f s).mem = s.mem := rfl
@[simp] theorem raiseFatal_status (f : Fault) (s : State) : (raiseFatal f s).status = .fatal f := rfl

/-! ## Reset -/

@[simp] theorem reset_mem : State.reset.mem = [] := rfl
@[simp] theorem reset_status : State.reset.status = .running := rfl
@[simp] theorem programCounter_reset : programCounter State.reset.regs = Config.resetPc := by decide

/-! ## Register file -/

@[simp] theorem readX_zero (r : RegFile) : readX r 0#5 = 0#32 := rfl
@[simp] theorem writeX_zero (r : RegFile) (v : Word) : writeX r 0#5 v = r := rfl

theorem readX_of_ne_zero (r : RegFile) {i : BitVec 5} (h : i ≠ 0#5) :
    readX r i = r[i.toNat]'(Nat.lt_succ_of_lt i.isLt) := if_neg h

theorem writeX_of_ne_zero (r : RegFile) {i : BitVec 5} (h : i ≠ 0#5) (v : Word) :
    writeX r i v = r.set i.toNat v (Nat.lt_succ_of_lt i.isLt) := if_neg h

@[simp] theorem programCounter_setPc (r : RegFile) (v : Word) : programCounter (setPc r v) = v := by
  simp [programCounter, setPc]

@[simp] theorem readX_setPc (r : RegFile) (v : Word) (i : BitVec 5) : readX (setPc r v) i = readX r i := by
  have hi := i.isLt
  unfold readX setPc
  split
  · rfl
  · exact Vector.getElem_set_ne _ _ (show (32 : Nat) ≠ i.toNat by omega)

@[simp] theorem slot0_setPc (r : RegFile) (v : Word) : (setPc r v)[0] = r[0] := by
  unfold setPc
  exact Vector.getElem_set_ne _ _ (by simp)

@[simp] theorem programCounter_writeX (r : RegFile) (i : BitVec 5) (v : Word) :
    programCounter (writeX r i v) = programCounter r := by
  have hi := i.isLt
  unfold programCounter writeX
  split
  · rfl
  · exact Vector.getElem_set_ne _ _ (show i.toNat ≠ (32 : Nat) by omega)

@[simp] theorem readX_writeX_same (r : RegFile) {i : BitVec 5} (h : i ≠ 0#5) (v : Word) :
    readX (writeX r i v) i = v := by
  simp [readX, writeX, h]

@[simp] theorem readX_writeX_other (r : RegFile) {i j : BitVec 5} (h : j ≠ i) (v : Word) :
    readX (writeX r i v) j = readX r j := by
  unfold readX writeX
  split
  · rfl
  · split
    · rfl
    · exact Vector.getElem_set_ne _ _ fun e => h (BitVec.eq_of_toNat_eq e.symm)

@[simp] theorem slot0_writeX (r : RegFile) (i : BitVec 5) (v : Word) : (writeX r i v)[0] = r[0] := by
  unfold writeX
  split
  · rfl
  · rename_i h
    exact Vector.getElem_set_ne _ _ fun e => h (BitVec.eq_of_toNat_eq (by simpa using e))

/-! ## Results -/

@[simp] theorem Result.bind_ok {α β : Type} (a : α) (f : α → Result β) : (Result.ok a).bind f = f a := rfl
@[simp] theorem Result.bind_fault {α β : Type} (e : Fault) (f : α → Result β) :
    (Result.fault e : Result α).bind f = .fault e := rfl
@[simp] theorem Result.bind_refused {α β : Type} (e : Refusal) (f : α → Result β) :
    (Result.refused e : Result α).bind f = .refused e := rfl
@[simp] theorem Result.map_ok {α β : Type} (f : α → β) (a : α) : (Result.ok a).map f = .ok (f a) := rfl
@[simp] theorem Result.map_fault {α β : Type} (f : α → β) (e : Fault) :
    (Result.fault e : Result α).map f = .fault e := rfl
@[simp] theorem Result.map_refused {α β : Type} (f : α → β) (e : Refusal) :
    (Result.refused e : Result α).map f = .refused e := rfl

/-- What a mapped result that is `ok` came from. -/
theorem Result.map_eq_ok {α β : Type} {f : α → β} {r : Result α} {b : β} (h : r.map f = .ok b) :
    ∃ a, r = .ok a ∧ f a = b := by
  cases r with
  | ok a => exact ⟨a, rfl, by simpa [Result.map, Result.bind] using h⟩
  | fault e => simp at h
  | refused e => simp at h

@[simp] theorem toOutcome_ok (t : State) (e : LogEvent) : toOutcome (.ok (t, e)) = .next t := rfl
@[simp] theorem toOutcome_fault (f : Fault) : toOutcome (.fault f) = .fault f := rfl
@[simp] theorem toOutcome_refused (f : Refusal) : toOutcome (.refused f) = .refused f := rfl

end Sys2Proof.Machine
end

