-- ==== Sys2Proof/Laws/Step.lean ====
section
/-! SUPPORT. One lemma per shared operation of the step that says everything it can do; later proofs cite these and
never unfold the operation. -/

namespace Sys2Proof.Machine

/-- Every meaning is the one shared operation (R77, R96). -/
theorem exec_eq_stepOver (i : Instr) (s : State) : exec i s = stepOver i s := by cases i <;> rfl

/-- The bounds check as an address range, in exact arithmetic (R27 to R29). -/
theorem inBounds_iff (a : Word) (n : Nat) : InBounds a n ↔ 0x80000000 ≤ a.toNat ∧ a.toNat + n ≤ 0x80040000 := by
  simp only [InBounds, Config.base, Config.memSize]; omega

/-- The offset of an address, with the value of `BASE` (R26). -/
theorem offsetOf_eq (a : Word) : offsetOf a = a.toNat - 0x80000000 := rfl

theorem advanceOverflows_iff (pc : Word) : advanceOverflows pc = true ↔ 0xFFFFFFFB < pc.toNat := by
  simp only [advanceOverflows, Config.ilenBytes, decide_eq_true_eq]; omega

/-- What `advance_pc_by(4)` does (R85, R86). -/
theorem advancePc_eq (r : RegFile) : advancePc r =
    if (programCounter r).toNat ≤ 0xFFFFFFFB then .ok (setPc r (programCounter r + 4#32)) else .refused .pcOverflow := by
  unfold advancePc
  by_cases h : advanceOverflows (programCounter r) = true
  · rw [if_pos h, if_neg]; rw [advanceOverflows_iff] at h; omega
  · rw [if_neg h, if_pos]; rw [advanceOverflows_iff] at h; omega

theorem toNat_add_four {pc : Word} (h : pc.toNat ≤ 0xFFFFFFFB) : (pc + 4#32).toNat = pc.toNat + 4 := by
  rw [BitVec.toNat_add]; simp; omega

/-- The state lines 3 to 6 of `step` leave. -/
def advanced (s : State) : State := { s with regs := setPc s.regs (programCounter s.regs + 4#32) }

@[simp] theorem advanced_mem (s : State) : (advanced s).mem = s.mem := rfl
@[simp] theorem advanced_status (s : State) : (advanced s).status = s.status := rfl
@[simp] theorem advanced_regs (s : State) : (advanced s).regs = setPc s.regs (programCounter s.regs + 4#32) := rfl

/-- What lines 3 to 6 of `step` do (R94): advance and log, or be refused at the end of the 32-bit space. -/
theorem retire_eq (word : Word) (s : State) : retire word s =
    if PcAdvances s then .ok (advanced s, logEvent word s) else .refused .pcOverflow := by
  unfold retire
  rw [advancePc_eq]
  by_cases h : PcAdvances s
  · rw [if_pos h, if_pos h]; rfl
  · rw [if_neg h, if_neg h]; rfl

/-- What stepping over an instruction does: the same for every instruction. -/
theorem stepOver_eq (i : Instr) (s : State) : stepOver i s =
    if PcAdvances s then .next (advanced s) else .refused .pcOverflow := by
  unfold stepOver
  rw [retire_eq]
  split <;> rfl

/-- Lines 3 to 6 of `step` change the PC alone. -/
theorem steppedOver_advanced {s : State} (h : PcAdvances s) : SteppedOver s (advanced s) where
  pc := by rw [advanced_regs, programCounter_setPc, toNat_add_four h]
  gprs i := by simp
  slot0 := by rw [advanced_regs, slot0_setPc]
  bytes o := rfl
  memory := rfl
  status := rfl

/-- What `fetch32` does at the configured FETCH32_MISALIGNED (R90). -/
theorem fetch32_eq (m : Memory) (a : Word) : fetch32 m a =
    if InBounds a 4 then .ok (Memory.readWord m (offsetOf a)) else .fault (.boundsViolation a 4) := by
  simp [fetch32, fetch32With, Config.fetch32Misaligned]

/-- An address at which a fetch is in bounds leaves room for the advance (R18, R86). -/
theorem pcAdvances_of_inBounds {s : State} (h : InBounds (programCounter s.regs) 4) : PcAdvances s := by
  rw [inBounds_iff] at h; unfold PcAdvances; omega

/-- The word the next step fetches, when it fetches one. -/
def fetched (s : State) : Word := Memory.readWord s.mem (offsetOf (programCounter s.regs))

/-- What lines 1 and 2 of `step` do (R94, R95, R98). -/
theorem fetchWord_eq (s : State) : fetchWord s =
    match s.status with
    | .fatal _ => .refused .notRunning
    | .running =>
      if InBounds (programCounter s.regs) 4 then .ok (fetched s)
      else .fault (.boundsViolation (programCounter s.regs) 4) := by
  unfold fetchWord
  cases s.status
  · simp only [fetch32_eq, fetched]
  · rfl

/-- What `step` does (R94 to R98): one step over, one fatal fetch, or a refusal of a machine that has stopped. -/
theorem step_eq (s : State) : step s =
    match s.status with
    | .fatal _ => .refused .notRunning
    | .running =>
      if InBounds (programCounter s.regs) 4 then .next (advanced s)
      else .fault (.boundsViolation (programCounter s.regs) 4) := by
  unfold step
  rw [fetchWord_eq]
  cases hs : s.status with
  | fatal f => rfl
  | running =>
    by_cases h : InBounds (programCounter s.regs) 4
    · simp only [if_pos h]
      rw [exec_eq_stepOver, stepOver_eq, if_pos (pcAdvances_of_inBounds h)]
    · simp only [if_neg h]

/-- What a step that answers a next state did. -/
theorem step_eq_next {s t : State} (h : step s = .next t) : CanStep s ∧ t = advanced s := by
  rw [step_eq] at h
  cases hs : s.status with
  | fatal f => simp [hs] at h
  | running =>
    simp only [hs] at h
    split at h
    · rename_i hb
      exact ⟨⟨hs, hb⟩, (Host.Outcome.next.inj h).symm⟩
    · exact absurd h (by simp)

/-- What an operation that completes did on a running machine, or that it was construction. -/
theorem perform_running {s : State} (hs : s.status = .running) (op : HostOp) :
    perform op s = outcomeFrom s (opEffect op s) := by
  unfold perform
  split
  · rename_i h; rw [h]
  · rw [hs]

/-- What `load` does (R88). -/
theorem load_eq (m : Memory) (a : Word) (bytes : List Byte) : load m a bytes =
    if InBounds a bytes.length then .ok (Memory.writeBytes m (offsetOf a) bytes)
    else .fault (.boundsViolation a bytes.length) := rfl

/-- A `load` that completes keeps the canonical form of memory. -/
theorem wf_load {m m' : Memory} {a : Word} {bytes : List Byte} (h : load m a bytes = .ok m')
    (hm : Memory.wf m = true) : Memory.wf m' = true := by
  rw [load_eq] at h
  split at h
  · rename_i hb
    cases h
    refine Memory.wf_writeBytes bytes ?_ hm
    have := hb.2
    unfold offsetOf
    omega
  · exact absurd h (by simp)

/-- What the host's `load` does in bounds (R88). -/
theorem perform_load {s : State} (hs : s.status = .running) {a : Word} {bytes : List Byte}
    (h : InBounds a bytes.length) : perform (.load a bytes) s
      = .ok .none { s with mem := Memory.writeBytes s.mem (offsetOf a) bytes } := by
  rw [perform_running hs]
  simp only [opEffect, load_eq, if_pos h]
  rfl

/-- What the host's `load` does out of bounds (R151, R152). -/
theorem perform_load_fatal {s : State} (hs : s.status = .running) {a : Word} {bytes : List Byte}
    (h : ¬ InBounds a bytes.length) : perform (.load a bytes) s
      = .fatal (.boundsViolation a bytes.length) (raiseFatal (.boundsViolation a bytes.length) s) := by
  rw [perform_running hs]
  simp only [opEffect, load_eq, if_neg h]
  rfl

/-- The word read where four bytes were written, in a canonical memory (R31, R93). -/
theorem readWord_writeBytes {m : Memory} (hm : Memory.wf m = true) {o : Nat} (ho : o + 4 ≤ Config.memSize)
    (b0 b1 b2 b3 : Byte) :
    Memory.readWord (Memory.writeBytes m o [b0, b1, b2, b3]) o = Codec.wordOfBytes b0 b1 b2 b3 := by
  unfold Memory.readWord
  rw [Memory.read_writeBytes _ _ ho hm, Memory.read_writeBytes _ _ ho hm, Memory.read_writeBytes _ _ ho hm,
    Memory.read_writeBytes _ _ ho hm]
  simp [show o + 1 - o = 1 by omega, show o + 2 - o = 2 by omega, show o + 3 - o = 3 by omega]

/-! ## Lists of operations, and runs -/

/-- One operation that completes and then the others. -/
theorem performAll_cons_ok {op : HostOp} {ops : List HostOp} {s s' t : State} {v : OpValue} {vs : List OpValue}
    (h : perform op s = .ok v s') (h' : performAll ops s' = .ok vs t) :
    performAll (op :: ops) s = .ok (v :: vs) t := by
  simp [performAll, h, h']

theorem hostRun_next (M : Host.Core) (k : Nat) (s t : M.State) (h : M.step s = .next t) :
    M.run (k + 1) s = M.run k t := by
  rw [Host.Core.run, h]

theorem hostRun_fault (M : Host.Core) (k : Nat) (s : M.State) (f : M.Fault) (h : M.step s = .fault f) :
    M.run (k + 1) s = .fault f := by
  rw [Host.Core.run, h]

/-- A run whose first step answers a next state goes on from it. -/
theorem coreRun_next {k : Nat} {s t : State} (h : step s = .next t) :
    Sys2Proof.core.run (k + 1) s = Sys2Proof.core.run k t := hostRun_next Sys2Proof.core k s t h

/-- A run whose first step is fatal ends there. -/
theorem coreRun_fault {k : Nat} {s : State} {f : Fault} (h : step s = .fault f) :
    Sys2Proof.core.run (k + 1) s = .fault f := hostRun_fault Sys2Proof.core k s f h

end Sys2Proof.Machine
end

