-- ==== Sys2Proof/Tests/Slice0.lean ====
section
/-! SUPPORT. The model's own tests. Expected results are taken from the spec's examples and vectors (spec/45 R104 to R143,
spec/95_test_vectors.md), or by hand from the rule named; and, for every obligation that has hypotheses, a
witness that meets them together. -/

namespace Sys2Proof.Tests

open Sys2Proof Sys2Proof.Machine

/-! ## WellFormed: one ill-formed term for each check is refused -/

theorem test_wellFormed_decodeB_refuses_bit0 : (Instr.decodeB 0#7 0#3 0#5 0#5 1#13).wellFormed = false := by decide
theorem test_wellFormed_decodeJ_refuses_bit0 : (Instr.decodeJ 0#7 0#5 1#21).wellFormed = false := by decide
theorem test_wellFormed_jal_refuses_bit0 : (Instr.jal 1#5 9#21).wellFormed = false := by decide
theorem test_wellFormed_branches_refuse_bit0 :
    (Instr.beq 0#5 0#5 1#13).wellFormed = false ∧ (Instr.bne 0#5 0#5 3#13).wellFormed = false ∧
    (Instr.blt 0#5 0#5 5#13).wellFormed = false ∧ (Instr.bge 0#5 0#5 7#13).wellFormed = false ∧
    (Instr.bltu 0#5 0#5 9#13).wellFormed = false ∧ (Instr.bgeu 0#5 0#5 0x1FFF#13).wellFormed = false := by decide
theorem test_wellFormed_accepts_even_offsets :
    (Instr.beq 0#5 0#5 0x1FFE#13).wellFormed = true ∧ (Instr.jal 0#5 0x1FFFFE#21).wellFormed = true := by decide

/-! ## Decoding: a word written out bit by bit for every constructor -/

/-- The word decodes to the instruction, and the instruction encodes to the word. -/
abbrev ShownBy (w : Word) (i : Instr) : Prop := decodeWord w = i ∧ encode i = w

/-- The word's view in a format is the instruction, and the instruction encodes to the word. -/
abbrev ViewedBy (f : Format) (w : Word) (i : Instr) : Prop := view f (decode w) = i ∧ encode i = w

/-- R41: an opcode RV32I does not name, by hand: funct7 1010101, rs2 00110, rs1 01001, funct3 101, rd 11011. -/
theorem test_decode_decodeR : ShownBy (0b10101010011001001101110110001011#32)
    (.decodeR 0x0B#7 27#5 5#3 9#5 6#5 0x55#7) := by decide
/-- R44, by hand: opcode 0x03 with the reserved funct3 7; imm 101010111100, rs1 00011, rd 01001. -/
theorem test_decode_decodeI : ShownBy (0b10101011110000011111010010000011#32)
    (.decodeI 0x03#7 9#5 7#3 3#5 0xABC#12) := by decide
/-- R45, by hand: opcode 0x23 with the reserved funct3 3; imm 1010101 and 11100, rs2 00110, rs1 01001. -/
theorem test_decode_decodeS : ShownBy (0b10101010011001001011111000100011#32)
    (.decodeS 0x23#7 3#3 9#5 6#5 0xABC#12) := by decide
/-- R46, by hand: opcode 0x63 with the reserved funct3 2; imm[12] 1, imm[10:5] 000000, imm[4:1] 0001, imm[11] 1. -/
theorem test_decode_decodeB : ShownBy (0b10000000011001001010000111100011#32)
    (.decodeB 0x63#7 2#3 9#5 6#5 0x1802#13) := by decide
/-- R47, by hand: imm 10101011110011011110, rd 00101, the opcode 0x0B. -/
theorem test_decode_decodeU : ViewedBy .U (0b10101011110011011110001010001011#32)
    (.decodeU 0x0B#7 5#5 0xABCDE#20) := by decide
/-- R48, by hand: imm[20] 1, imm[10:1] 0000000001, imm[11] 1, imm[19:12] 00000010, rd 00101, the opcode 0x0B. -/
theorem test_decode_decodeJ : ViewedBy .J (0b10000000001100000010001010001011#32)
    (.decodeJ 0x0B#7 5#5 0x102802#21) := by decide
/-- R104's example, `lui x5, 0x12345`. -/
theorem test_decode_lui : ShownBy (0b00010010001101000101001010110111#32) (.lui 5#5 0x12345#20) := by decide
/-- R105's example, `auipc x3, 0x80000`. -/
theorem test_decode_auipc : ShownBy (0b10000000000000000000000110010111#32) (.auipc 3#5 0x80000#20) := by decide
/-- R106's example, `jal x1, 8`. -/
theorem test_decode_jal : ShownBy (0b00000000100000000000000011101111#32) (.jal 1#5 0x8#21) := by decide
/-- R107's example, `jalr x0, 0(x1)`. -/
theorem test_decode_jalr : ShownBy (0b00000000000000001000000001100111#32) (.jalr 0#5 1#5 0x0#12) := by decide
/-- R108's example, `beq x0, x0, -4`. -/
theorem test_decode_beq : ShownBy (0b11111110000000000000111011100011#32) (.beq 0#5 0#5 0x1FFC#13) := by decide
/-- R109's example, `bne x1, x2, 8`. -/
theorem test_decode_bne : ShownBy (0b00000000001000001001010001100011#32) (.bne 1#5 2#5 0x8#13) := by decide
/-- R110's example, `blt x3, x4, -4096`. -/
theorem test_decode_blt : ShownBy (0b10000000010000011100000001100011#32) (.blt 3#5 4#5 0x1000#13) := by decide
/-- R111's example, `bge x5, x6, 16`. -/
theorem test_decode_bge : ShownBy (0b00000000011000101101100001100011#32) (.bge 5#5 6#5 0x10#13) := by decide
/-- R112's example, `bltu x7, x8, 2048`. -/
theorem test_decode_bltu : ShownBy (0b00000000100000111110000011100011#32) (.bltu 7#5 8#5 0x800#13) := by decide
/-- R113's example, `bgeu x3, x4, 4094`. -/
theorem test_decode_bgeu : ShownBy (0b01111110010000011111111111100011#32) (.bgeu 3#5 4#5 0xFFE#13) := by decide
/-- R114's example, `lb x10, -1(x2)`. -/
theorem test_decode_lb : ShownBy (0b11111111111100010000010100000011#32) (.lb 10#5 2#5 0xFFF#12) := by decide
/-- R115's example, `lh x10, 2(x2)`. -/
theorem test_decode_lh : ShownBy (0b00000000001000010001010100000011#32) (.lh 10#5 2#5 0x2#12) := by decide
/-- R116's example, `lw x10, 8(x2)`. -/
theorem test_decode_lw : ShownBy (0b00000000100000010010010100000011#32) (.lw 10#5 2#5 0x8#12) := by decide
/-- R117's example, `lbu x10, 2047(x2)`. -/
theorem test_decode_lbu : ShownBy (0b01111111111100010100010100000011#32) (.lbu 10#5 2#5 0x7FF#12) := by decide
/-- R118's example, `lhu x10, -2048(x2)`. -/
theorem test_decode_lhu : ShownBy (0b10000000000000010101010100000011#32) (.lhu 10#5 2#5 0x800#12) := by decide
/-- R119's example, `sb x7, -2048(x8)`. -/
theorem test_decode_sb : ShownBy (0b10000000011101000000000000100011#32) (.sb 8#5 7#5 0x800#12) := by decide
/-- R120's example, `sh x7, 2047(x8)`. -/
theorem test_decode_sh : ShownBy (0b01111110011101000001111110100011#32) (.sh 8#5 7#5 0x7FF#12) := by decide
/-- R121's example, `sw x5, 12(x2)`. -/
theorem test_decode_sw : ShownBy (0b00000000010100010010011000100011#32) (.sw 2#5 5#5 0xC#12) := by decide
/-- R122's example, `addi x1, x0, 5`. -/
theorem test_decode_addi : ShownBy (0b00000000010100000000000010010011#32) (.addi 1#5 0#5 0x5#12) := by decide
/-- R123's example, `slti x6, x7, -1`. -/
theorem test_decode_slti : ShownBy (0b11111111111100111010001100010011#32) (.slti 6#5 7#5 0xFFF#12) := by decide
/-- R124's example, `sltiu x6, x7, 1`. -/
theorem test_decode_sltiu : ShownBy (0b00000000000100111011001100010011#32) (.sltiu 6#5 7#5 0x1#12) := by decide
/-- R125's example, `xori x6, x7, -1`. -/
theorem test_decode_xori : ShownBy (0b11111111111100111100001100010011#32) (.xori 6#5 7#5 0xFFF#12) := by decide
/-- R126's example, `ori x6, x7, 0x0F0`. -/
theorem test_decode_ori : ShownBy (0b00001111000000111110001100010011#32) (.ori 6#5 7#5 0xF0#12) := by decide
/-- R127's example, `andi x6, x7, 0x7FF`. -/
theorem test_decode_andi : ShownBy (0b01111111111100111111001100010011#32) (.andi 6#5 7#5 0x7FF#12) := by decide
/-- R128's example, `slli x4, x4, 31`. -/
theorem test_decode_slli : ShownBy (0b00000001111100100001001000010011#32) (.slli 4#5 4#5 31#5) := by decide
/-- R129's example, `srli x4, x4, 1`. -/
theorem test_decode_srli : ShownBy (0b00000000000100100101001000010011#32) (.srli 4#5 4#5 1#5) := by decide
/-- R130's example, `srai x4, x4, 3`. -/
theorem test_decode_srai : ShownBy (0b01000000001100100101001000010011#32) (.srai 4#5 4#5 3#5) := by decide
/-- R131's example, `add x3, x1, x2`. -/
theorem test_decode_add : ShownBy (0b00000000001000001000000110110011#32) (.add 3#5 1#5 2#5) := by decide
/-- R132's example, `sub x3, x1, x2`. -/
theorem test_decode_sub : ShownBy (0b01000000001000001000000110110011#32) (.sub 3#5 1#5 2#5) := by decide
/-- R133's example, `sll x3, x1, x2`. -/
theorem test_decode_sll : ShownBy (0b00000000001000001001000110110011#32) (.sll 3#5 1#5 2#5) := by decide
/-- R134's example, `slt x3, x1, x2`. -/
theorem test_decode_slt : ShownBy (0b00000000001000001010000110110011#32) (.slt 3#5 1#5 2#5) := by decide
/-- R135's example, `sltu x3, x1, x2`. -/
theorem test_decode_sltu : ShownBy (0b00000000001000001011000110110011#32) (.sltu 3#5 1#5 2#5) := by decide
/-- R136's example, `xor x3, x1, x2`. -/
theorem test_decode_xor : ShownBy (0b00000000001000001100000110110011#32) (.xor 3#5 1#5 2#5) := by decide
/-- R137's example, `srl x3, x1, x2`. -/
theorem test_decode_srl : ShownBy (0b00000000001000001101000110110011#32) (.srl 3#5 1#5 2#5) := by decide
/-- R138's example, `sra x3, x1, x2`. -/
theorem test_decode_sra : ShownBy (0b01000000001000001101000110110011#32) (.sra 3#5 1#5 2#5) := by decide
/-- R139's example, `or x3, x1, x2`. -/
theorem test_decode_or : ShownBy (0b00000000001000001110000110110011#32) (.or 3#5 1#5 2#5) := by decide
/-- R140's example, `and x31, x30, x29`. -/
theorem test_decode_and : ShownBy (0b00000001110111110111111110110011#32) (.and 31#5 30#5 29#5) := by decide
/-- R141's example, `fence iorw, iorw`. -/
theorem test_decode_fence : ShownBy (0b00001111111100000000000000001111#32) (.fence 0#5 0#5 0x0FF#12) := by decide
/-- R142's example, `ecall`. -/
theorem test_decode_ecall : ShownBy (0b00000000000000000000000001110011#32) (.ecall) := by decide
/-- R143's example, `ebreak`. -/
theorem test_decode_ebreak : ShownBy (0b00000000000100000000000001110011#32) (.ebreak) := by decide

/-- An ADD-like word whose funct7 no row has, a SUB-like one whose funct3 no row has, an ECALL with a register field
set, and a shift with a reserved funct7 fall to the view of their format, not to a neighbour (R102, R103). -/
theorem test_decode_reserved_words_keep_their_view :
    decodeWord 0x022081B3#32 = .decodeR 0x33#7 3#5 0#3 1#5 2#5 0x01#7 ∧
    decodeWord 0x402091B3#32 = .decodeR 0x33#7 3#5 1#3 1#5 2#5 0x20#7 ∧
    decodeWord 0x000000F3#32 = .decodeI 0x73#7 1#5 0#3 0#5 0#12 ∧
    decodeWord 0x00200073#32 = .decodeI 0x73#7 0#5 0#3 0#5 2#12 ∧
    decodeWord 0x02125213#32 = .decodeI 0x13#7 4#5 5#3 4#5 0x021#12 := by decide

/-- The forty rows of R103 do not overlap: two rows' masks agree on a bit where their matches differ. -/
theorem test_opcode_rows_are_disjoint :
    opcodeRows.Pairwise fun r q => r.value &&& q.mask ≠ q.value &&& r.mask := by decide

/-- Fewer than four bytes are rejected by name; four and more leave the rest (R40). -/
theorem test_decodeBytes_truncated : decodeBytes [0x93#8, 0x00#8, 0x50#8] = .error (.truncated 3) := rfl
theorem test_decodeBytes_little_endian :
    decodeBytes [0x93#8, 0x00#8, 0x50#8, 0x00#8, 0x7F#8] = .ok (.addi 1#5 0#5 5#12, [0x7F#8]) := by rfl
theorem test_decodeTableWord :
    decodeTableWord 32 0x00500093 = some (.addi 1#5 0#5 5#12) ∧ decodeTableWord 40 0x00500093 = none := by decide

/-! ## The decoded record: vectors of spec/95_test_vectors.md, all eleven outputs -/
theorem test_record_V4 : decode 0x7FF30293#32
    = ⟨0x13, 0, 0x3F, 5, 6, 31, 0x000007FF, 0x000007E5, 0x00000FE4, 0x7FF30000, 0x00030FFE⟩ := by decide
theorem test_record_V8 : decode 0xFFF12E23#32
    = ⟨0x23, 2, 0x7F, 28, 2, 31, 0xFFFFFFFF, 0xFFFFFFFC, 0xFFFFF7FC, 0xFFF12000, 0xFFF12FFE⟩ := by decide
theorem test_record_V10 : decode 0x7E741FA3#32
    = ⟨0x23, 1, 0x3F, 31, 8, 7, 0x000007E7, 0x000007FF, 0x00000FFE, 0x7E741000, 0x00041FE6⟩ := by decide
theorem test_record_V13 : decode 0x8041C063#32
    = ⟨0x63, 4, 0x40, 0, 3, 4, 0xFFFFF804, 0xFFFFF800, 0xFFFFF000, 0x8041C000, 0xFFF1C004⟩ := by decide
theorem test_record_V14 : decode 0x7E41FFE3#32
    = ⟨0x63, 7, 0x3F, 31, 3, 4, 0x000007E4, 0x000007FF, 0x00000FFE, 0x7E41F000, 0x0001F7E4⟩ := by decide
theorem test_record_V20 : decode 0xFFDFF06F#32
    = ⟨0x6F, 7, 0x7F, 0, 31, 29, 0xFFFFFFFD, 0xFFFFFFE0, 0xFFFFF7E0, 0xFFDFF000, 0xFFFFFFFC⟩ := by decide
theorem test_record_V22 : decode 0x7FFFF0EF#32
    = ⟨0x6F, 7, 0x3F, 1, 31, 31, 0x000007FF, 0x000007E1, 0x00000FE0, 0x7FFFF000, 0x000FFFFE⟩ := by decide
theorem test_record_V24 : decode 0x344120EF#32
    = ⟨0x6F, 2, 0x1A, 1, 2, 4, 0x00000344, 0x00000341, 0x00000B40, 0x34412000, 0x00012344⟩ := by decide
theorem test_record_V32 : decode 0xFFFFFFFF#32
    = ⟨0x7F, 7, 0x7F, 31, 31, 31, 0xFFFFFFFF, 0xFFFFFFFF, 0xFFFFFFFE, 0xFFFFF000, 0xFFFFFFFE⟩ := by decide
theorem test_record_V37 : decode 0xAAAAAAAA#32
    = ⟨0x2A, 2, 0x55, 21, 21, 10, 0xFFFFFAAA, 0xFFFFFAB5, 0xFFFFFAB4, 0xAAAAA000, 0xFFFAA2AA⟩ := by decide
theorem test_record_V38 : decode 0x55555555#32
    = ⟨0x55, 5, 0x2A, 10, 10, 21, 0x00000555, 0x0000054A, 0x0000054A, 0x55555000, 0x00055D54⟩ := by decide
theorem test_record_V39 : decode 0xDEADBEEF#32
    = ⟨0x6F, 3, 0x6F, 29, 27, 10, 0xFFFFFDEA, 0xFFFFFDFD, 0xFFFFFDFC, 0xDEADB000, 0xFFFDB5EA⟩ := by decide
theorem test_record_V41 : decode 0x00000F00#32
    = ⟨0x00, 0, 0x00, 30, 0, 0, 0x00000000, 0x0000001E, 0x0000001E, 0x00000000, 0x00000000⟩ := by decide
theorem test_record_V42 : decode 0x000FF000#32
    = ⟨0x00, 7, 0x00, 0, 31, 0, 0x00000000, 0x00000000, 0x00000000, 0x000FF000, 0x000FF000⟩ := by decide

/-! ## The codec: vectors K3 to K24 -/

theorem test_bitrange :
    bitrangeOp 0xDEADBEEF#32 31 25 = .ok 0x6F#32 ∧ bitrangeOp 0x80000000#32 31 31 = .ok 1#32 ∧
    bitrangeOp 0xFFFFFFFF#32 31 0 = .ok 0xFFFFFFFF#32 ∧ bitrangeOp 0#32 32 25 = .refused (.bitrangeDomain 32 25) ∧
    bitrangeOp 0#32 4 5 = .refused (.bitrangeDomain 4 5) := by decide
theorem test_signExt :
    signExtOp 0x1000#32 13 = .ok 0xFFFFF000#32 ∧ signExtOp 0x0FFFFE#32 21 = .ok 0x000FFFFE#32 ∧
    signExtOp 1#32 1 = .ok 0xFFFFFFFF#32 ∧ signExtOp 0x12A#32 8 = .ok 0x12A#32 ∧
    signExtOp 7#32 0 = .refused (.signExtDomain 0) ∧ signExtOp 7#32 33 = .refused (.signExtDomain 33) := by decide

/-! ## The operations: vectors F2 to F12 and M2 to M18 -/

/-- The answers of a list of operations from reset, or why it ended. -/
def answers (ops : List HostOp) : Sum (List OpValue) (Sum Fault Refusal) :=
  match performAll ops State.reset with
  | .ok vs _ => .inl vs
  | .fatal why _ => .inr (.inl why)
  | .refuse why => .inr (.inr why)

theorem test_F3_x0_discards : answers [.set 0 1#32, .set 0 31#32, .get 0] = .inl [.none, .none, .word 0#32] := rfl
theorem test_F5_x31_is_not_the_pc : answers [.set 31 0x12345678#32, .get 31, .programCounter]
    = .inl [.none, .word 0x12345678#32, .word 0x80000000#32] := rfl
theorem test_F10_F11_pc_slot : answers [.set 32 0x80000100#32, .programCounter, .set 32 0xFFFFFFFC#32, .advancePc]
    = .inr (.inr .pcOverflow) := rfl
theorem test_F12_no_such_slot : answers [.get 33] = .inr (.inr (.noSuchSlot 33)) ∧
    answers [.set 40 1#32] = .inr (.inr (.noSuchSlot 40)) := ⟨rfl, rfl⟩
theorem test_M2_neighbours : answers [.load 0x80000008#32 [0xEF#8, 0xBE#8, 0xAD#8, 0xDE#8], .fetch32 0x80000004#32,
    .fetch32 0x80000008#32, .fetch32 0x8000000C#32] = .inl [.none, .word 0#32, .word 0xDEADBEEF#32, .word 0#32] := rfl
theorem test_M5_M6_M7_bounds : answers [.fetch32 0x8003FFFD#32] = .inr (.inl (.boundsViolation 0x8003FFFD#32 4)) ∧
    answers [.fetch32 0x7FFFFFFC#32] = .inr (.inl (.boundsViolation 0x7FFFFFFC#32 4)) ∧
    answers [.fetch32 0xFFFFFFFF#32] = .inr (.inl (.boundsViolation 0xFFFFFFFF#32 4)) := ⟨rfl, rfl, rfl⟩
theorem test_M8_last_byte : answers [.load 0x8003FFFF#32 [0xAB#8], .fetch32 0x8003FFFC#32]
    = .inl [.none, .word 0xAB000000#32] := rfl
theorem test_M9_store32 : answers [.store32 0x80000010#32 0x12345678#32, .fetch32 0x80000011#32]
    = .inl [.none, .word 0x00123456#32] := rfl
theorem test_M14_misaligned : answers [.load 0x80000000#32 [0x11#8, 0x22#8, 0x33#8, 0x44#8, 0x55#8, 0x66#8],
    .fetch32 0x80000001#32, .fetch32 0x80000002#32] = .inl [.none, .word 0x55443322#32, .word 0x66554433#32] := rfl
theorem test_M15_overlap : answers [.load 0x80000000#32 [1#8, 2#8, 3#8, 4#8], .load 0x80000002#32 [9#8, 9#8],
    .fetch32 0x80000000#32] = .inl [.none, .none, .word 0x09090201#32] := rfl
/-- Writing `0x00` removes the entry: equal memories are equal data (log entry 11). -/
theorem test_memory_is_canonical :
    Memory.write (Memory.write [] 4 7#8) 4 0#8 = [] ∧
    Memory.write (Memory.write [] 4 7#8) 1 5#8 = Memory.write (Memory.write [] 1 5#8) 4 7#8 := by decide

/-! ## One step: vectors T1 to T8, and the dumps -/

/-- A machine after reset with one word stored at the reset PC. -/
def withWord (w : Word) : State := { State.reset with mem := Memory.writeBytes [] 0 (Codec.bytesOfWord w) }

/-- A machine after reset with its PC elsewhere. -/
def atPc (pc : Word) : State := { State.reset with regs := setPc State.reset.regs pc }

/-- A machine that has stopped on a fatal error. -/
def stopped : State := raiseFatal .malformedImage State.reset

/-- What a test looks at after one step: the PC and three registers, or why there is none. -/
def seen (s : State) : Sum (Word × Word × Word × Word) (Sum Fault Refusal) :=
  match step s with
  | .next t => .inl (programCounter t.regs, readX t.regs 1#5, readX t.regs 3#5, readX t.regs 31#5)
  | .fault why => .inr (.inl why)
  | .refused why => .inr (.inr why)

theorem test_T1_reset : seen State.reset = .inl (0x80000004#32, 0#32, 0#32, 0#32) := rfl
theorem test_T2_addi_is_not_executed : seen (withWord 0x00500093#32) = .inl (0x80000004#32, 0#32, 0#32, 0#32) := rfl
theorem test_T4_last_word : seen (atPc 0x8003FFFC#32) = .inl (0x80040000#32, 0#32, 0#32, 0#32) := rfl
theorem test_T5_past_the_window : seen (atPc 0x80040000#32) = .inr (.inl (.boundsViolation 0x80040000#32 4)) := rfl
theorem test_T7_misaligned_pc : seen (atPc 0x80000002#32) = .inl (0x80000006#32, 0#32, 0#32, 0#32) := rfl
theorem test_T8_ecall_does_not_trap : seen (withWord 0x00000073#32) = .inl (0x80000004#32, 0#32, 0#32, 0#32) := rfl
theorem test_P2_jal_to_self_moves_on : seen (withWord 0x0000006F#32) = .inl (0x80000004#32, 0#32, 0#32, 0#32) := rfl
theorem test_stopped_machine_does_not_step : seen stopped = .inr (.inr .notRunning) := rfl
/-- T6: the event of the all-ones word with `x31` written. -/
theorem test_T6_event :
    logEvent 0xFFFFFFFF#32 { State.reset with regs := writeX State.reset.regs 31#5 0xCAFEF00D#32 }
      = ⟨0x80000000#32, 0xFFFFFFFF#32, decode 0xFFFFFFFF#32, 0xCAFEF00D#32, 0xCAFEF00D#32⟩ := by decide
theorem test_withFetchWord : fetchWord ((atPc 0x10#32).withFetchWord 32 0x00500093) = .ok 0x00500093#32 := rfl
/-- P4': the first row of the dump, in the case the host chooses (R164). -/
theorem test_dump_row_text : dumpRowText .hex .upper (dumpRow (withWord 0x80000197#32).mem 0)
    = "0x80000000: 0x80000197 0x00000000 0x00000000 0x00000000".toList := by decide
/-- The binary-digit equivalent of one word (R164; the prefix is the model's choice, log entry 17). -/
theorem test_dump_word_binary : dumpWordText .binary .upper 0x80000197#32
    = "0b10000000000000000000000110010111".toList := by decide
/-- R165: a header, the lines `x0` to `x30`, and the PC line. -/
theorem test_register_dump_lines : (registerDumpText .lower State.reset.regs).length = 33 ∧
    (registerDumpText .lower State.reset.regs).getLast? = some "PC   80000000".toList := by decide
theorem test_P4_loader_skips_below_base : (runLoader (.parsed [.segment 0x00010000#32 [0x7F#8],
    .segment 0x80000000#32 [0x97#8]]) State.reset).stateAfter?
      = some { State.reset with mem := [(0, 0x97#8)] } := rfl

/-! ## The parameters of spec/00_scope.md R5 -/

theorem test_parameters : Config.base = 0x80000000 ∧ Config.memSize = 262144 ∧ Config.memEnd = 0x80040000 ∧
    Config.ngpr = 32 ∧ Config.nslot = 33 ∧ Config.pcSlot = 32 ∧ Config.ilenBytes = 4 ∧
    Config.resetPc = 0x80000000#32 ∧ Config.nSteps = 1 := by decide

end Sys2Proof.Tests

/-! ## Witnesses: for each obligation with hypotheses, values that meet them together, at the edges of each clause -/

namespace Sys2Proof.Tests

open Sys2Proof Sys2Proof.Machine

/-- `BitrangeIsTheUnsignedSlice`: the widest, the lowest and the highest slice, and a machine that runs. -/
theorem witness_bitrange : (0 ≤ 31 ∧ 31 < 32) ∧ (0 ≤ 0 ∧ 0 < 32) ∧ (31 ≤ 31 ∧ 31 < 32) ∧
    State.reset.status = .running := by decide
/-- `SignExtFillsHigherBits`: the least and the greatest width, with values that fit. -/
theorem witness_signExt : (1 ≤ 1 ∧ 1 ≤ 32 ∧ (1#32).toNat < 2 ^ 1) ∧
    (1 ≤ 32 ∧ 32 ≤ 32 ∧ (0xFFFFFFFF#32).toNat < 2 ^ 32) := by decide
/-- `CodecIsRefusedOutsideItsDomain`: each way out of the domain. -/
theorem witness_codec_domain : ((4 < 5 ∨ 32 ≤ 4 ∨ 32 ≤ 5) ∧ (32 < 25 ∨ 32 ≤ 32 ∨ 32 ≤ 25) ∧
    (33 < 32 ∨ 32 ≤ 33 ∨ 32 ≤ 32)) ∧ (0 = 0 ∨ 32 < 0) ∧ (33 = 0 ∨ 32 < 33) := by decide
/-- `ITypeImmediate`: a word for each corner. -/
theorem witness_imm_i : (0x80030293#32).extractLsb' 20 12 = 0x800#12 ∧ (0x7FF30293#32).extractLsb' 20 12 = 0x7FF#12 ∧
    (0xFFF08113#32).extractLsb' 20 12 = 0xFFF#12 := by decide
/-- `STypeImmediate`: a word for each corner. -/
theorem witness_imm_s :
    ((0x80740023#32).extractLsb' 25 7 = 0x40#7 ∧ (0x80740023#32).extractLsb' 7 5 = 0#5) ∧
    ((0x7E741FA3#32).extractLsb' 25 7 = 0x3F#7 ∧ (0x7E741FA3#32).extractLsb' 7 5 = 0x1F#5) := by decide
/-- `BTypeImmediate`: the word of the largest offset. -/
theorem witness_imm_b : (0x7E41FFE3#32).extractLsb' 25 6 = 0x3F#6 ∧ (0x7E41FFE3#32).extractLsb' 8 4 = 0xF#4 ∧
    (0x7E41FFE3#32).getLsbD 7 = true ∧ (0x7E41FFE3#32).getLsbD 31 = false := by decide
/-- `UTypeImmediate`: a word for each corner. -/
theorem witness_imm_u : (0x80000197#32).extractLsb' 12 20 = 0x80000#20 ∧
    (0xFFFFF2B7#32).extractLsb' 12 20 = 0xFFFFF#20 ∧ (0x000002B7#32).extractLsb' 12 20 = 0#20 := by decide
/-- `JTypeImmediate`: the word of the largest offset. -/
theorem witness_imm_j : (0x7FFFF0EF#32).extractLsb' 12 19 = 0x7FFFF#19 ∧ (0x7FFFF0EF#32).getLsbD 31 = false := by
  decide
/-- `NoEncodingIsIllegal` and `TaggedStepIsTheUndispatchedStep`: a word a machine fetches. -/
theorem witness_fetches : fetchWord (withWord 0xFFFFFFFF#32) = .ok 0xFFFFFFFF#32 := rfl
/-- `NoEncodingIsIllegal`: two words that differ in the opcode alone. -/
theorem witness_same_upper_bits : (0x00500093#32 >>> 7) = (0x005000FF#32 >>> 7) ∧ 0x00500093#32 ≠ 0x005000FF#32 := by
  decide
/-- `DecodeOfEncodeIsTheInstruction`: a row at an extreme operand, and each view a word can be tagged with. -/
theorem witness_canonical : ∀ i ∈ [Instr.bgeu 31#5 31#5 0x1FFE#13, .ecall, .decodeR 0x0B#7 27#5 5#3 9#5 6#5 0x55#7,
    .decodeI 0x03#7 9#5 7#3 3#5 0xABC#12, .decodeS 0x23#7 3#3 9#5 6#5 0xABC#12, .decodeB 0x63#7 2#3 9#5 6#5 0x1802#13],
    i.wellFormed = true ∧ i.canonical = true := by decide
/-- `EveryWordHasAllSixViews`, `ViewsComplete`, `UpperAndJumpsComplete`, `BranchesComplete`: even offsets. -/
theorem witness_even_offsets : (0x1FFE#13).getLsbD 0 = false ∧ (0x1FFFFE#21).getLsbD 0 = false := by decide
/-- `OpcodeRowsSelectTheirInstructions`: a row, a word it selects and a word it does not. -/
theorem witness_row : (⟨.ecall, 0xFFFFFFFF, 0x00000073⟩ : OpcodeRow) ∈ opcodeRows ∧
    (⟨.ecall, 0xFFFFFFFF, 0x00000073⟩ : OpcodeRow).selects 0x00000073#32 ∧
    ¬ (⟨.ecall, 0xFFFFFFFF, 0x00000073⟩ : OpcodeRow).selects 0x00100073#32 := by decide
/-- `OtherWordsGetTheViewOfTheirFormat`: a word whose opcode has a format and one whose has none. -/
theorem witness_no_row : isRowWord 0x00003063#32 = false ∧ isRowWord 0x00002063#32 = false ∧
    isRowWord 0x00000000#32 = false := by decide
/-- `GetReadsTheSlotOrZero` and `SetWritesOneSlotOrNothing`: the lowest and the highest index, on a machine that runs. -/
theorem witness_registers : State.reset.status = .running ∧ (1 < 32 ∧ 0 < 1) ∧ (31 < 32 ∧ 0 < 31) := by decide
/-- `SignExtFillsHigherBits`, `NoEncodingIsIllegal`, `ProgramCounterIsSlot32`, `AfterAnySetsLastWriteStands`, `DumpsOnlyRead`, `LoaderLoadsSegmentsFromBaseUp` and the first
clause of `LoaderFailureIsFatal`: a machine that runs; a register other than `x0`; a row of a dump. -/
theorem witness_running : State.reset.status = .running ∧ (31#5 : BitVec 5) ≠ 0#5 ∧
    0 < (memoryDump State.reset.mem 1).length := by decide
/-- `AdvancePcAddsFour`: the last PC that advances and the first that does not. -/
theorem witness_advance : ((atPc 0xFFFFFFFB#32).status = .running ∧ (atPc 0xFFFFFFFB#32).regs[32].toNat ≤ 0xFFFFFFFB) ∧
    ((atPc 0xFFFFFFFC#32).status = .running ∧ 0xFFFFFFFB < (atPc 0xFFFFFFFC#32).regs[32].toNat) := by decide
/-- `SlotsAbove31`: a machine that runs and the first index refused. -/
theorem witness_slots : State.reset.status = .running ∧ 33 ≤ 33 := by decide
/-- `LoadWritesItsRange`: a `load` that ends with the buffer, and one that passes its end. -/
theorem witness_load : (State.reset.status = .running ∧ Memory.wf State.reset.mem = true ∧
    InBounds 0x8003FFFE#32 [1#8, 2#8].length) ∧ ¬ InBounds 0x8003FFFF#32 [1#8, 2#8].length := by decide
/-- `LoadAtTheEdgesOfTheWindow`: both ends of the window, the addresses beside them, and both lengths. -/
theorem witness_load_edges :
    (0x80000000 ≤ (0x80000000#32).toNat ∧ (0x80000000#32).toNat ≤ 0x80040000) ∧
    (0x80000000 ≤ (0x80040000#32).toNat ∧ (0x80040000#32).toNat ≤ 0x80040000) ∧
    ((0x7FFFFFFF#32).toNat < 0x80000000 ∨ 0x80040000 < (0x7FFFFFFF#32).toNat) ∧
    ((0x80040001#32).toNat < 0x80000000 ∨ 0x80040000 < (0x80040001#32).toNat) ∧
    (List.replicate 262144 (0#8 : Byte)).length = 262144 ∧ 262144 < (List.replicate 262145 (0#8 : Byte)).length := by
  refine ⟨by decide, by decide, by decide, by decide, List.length_replicate, ?_⟩
  rw [List.length_replicate]; decide
/-- `FetchReadsLittleEndian`: the first and the last fetchable address, and their neighbours. -/
theorem witness_fetch :
    (0x80000000 ≤ (0x80000000#32).toNat ∧ (0x80000000#32).toNat ≤ 0x8003FFFC) ∧
    (0x80000000 ≤ (0x8003FFFC#32).toNat ∧ (0x8003FFFC#32).toNat ≤ 0x8003FFFC) ∧
    ((0x7FFFFFFF#32).toNat < 0x80000000 ∨ 0x8003FFFC < (0x7FFFFFFF#32).toNat) ∧
    ((0x8003FFFD#32).toNat < 0x80000000 ∨ 0x8003FFFC < (0x8003FFFD#32).toNat) := by decide
/-- `MisalignedFetchFollowsItsParameter` and `LoadThenFetchRoundTrip`: a misaligned and an aligned address in bounds. -/
theorem witness_alignment : (InBounds 0x8003FFFB#32 4 ∧ (0x8003FFFB#32).toNat % 4 ≠ 0) ∧
    (InBounds 0x8003FFFC#32 4 ∧ (0x8003FFFC#32).toNat % 4 = 0) ∧ Memory.wf [] = true := by decide
/-- `MostRecentLoadOfEachByteStands`: two overlapping loads in bounds. -/
theorem witness_loads : State.reset.status = .running ∧ Memory.wf State.reset.mem = true ∧
    ∀ p ∈ ([(0x80000000#32, [1#8, 2#8]), (0x80000001#32, [3#8])] : List (Word × List Byte)), InBounds p.1 p.2.length := by
  decide
/-- `StoredWordIsTheNextFetched` and `StepExecutesNothing`: a machine that can step at the last word of the window. -/
theorem witness_canStep : CanStep (atPc 0x8003FFFC#32) ∧ Memory.wf (atPc 0x8003FFFC#32).mem = true ∧
    ∃ t, step (atPc 0x8003FFFC#32) = .next t := ⟨by decide, by decide, _, rfl⟩
/-- `StepRunsTheDecodedInstruction`: a machine whose PC is at a stored word. -/
theorem witness_decoded_bytes : CanStep (withWord 0x00500093#32) ∧
    decodeBytes [Memory.read (withWord 0x00500093#32).mem 0, Memory.read (withWord 0x00500093#32).mem 1,
      Memory.read (withWord 0x00500093#32).mem 2, Memory.read (withWord 0x00500093#32).mem 3]
      = .ok (.addi 1#5 0#5 5#12, []) ∧
    (programCounter (withWord 0x00500093#32).regs).toNat - 0x80000000 = 0 ∧
    (Instr.addi 1#5 0#5 5#12).wellFormed = true := ⟨by decide, by rfl, by decide, by decide⟩
/-- `FetchOutOfBoundsIsFatal`: the PCs beside the fetchable ones. -/
theorem witness_out_of_bounds :
    ((atPc 0x7FFFFFFF#32).status = .running ∧ (programCounter (atPc 0x7FFFFFFF#32).regs).toNat < 0x80000000) ∧
    ((atPc 0x8003FFFD#32).status = .running ∧ 0x8003FFFC < (programCounter (atPc 0x8003FFFD#32).regs).toNat) := by decide
/-- `FatalStatusIsTerminal`: a stopped machine and an operation that is not construction. -/
theorem witness_fatal : stopped.status = .fatal .malformedImage ∧ HostOp.step ≠ .reset := by decide
/-- `FatalStatusIsTerminal`: a run that leaves a running state, and one that leaves a fatal one. -/
theorem witness_runs_leave_states : (∃ t, (runImage (.parsed []) 1).2.stateAfter? = some t) ∧
    (∃ t, (runImage .unparsable 1).2.stateAfter? = some t) := ⟨⟨_, rfl⟩, ⟨_, rfl⟩⟩
/-- `TheInstructionDoesNotMatter`: two instructions with one word. -/
theorem witness_same_word : encode (.lui 5#5 0x12345#20) = encode (.decodeU 0x37#7 5#5 0x12345#20) := by decide
/-- `EveryInstructionNeedsRoomForThePc` and every completion statement: a machine whose PC advances, after reset, at the
end of the window and at the last such PC; and one whose PC does not. -/
theorem witness_pcAdvances : PcAdvances State.reset ∧ PcAdvances (atPc 0x8003FFFC#32) ∧ PcAdvances (atPc 0xFFFFFFFB#32) ∧
    ¬ PcAdvances (atPc 0xFFFFFFFC#32) := by decide
/-- `StepKeepsThePcInvariant`: a step at each end of the window. -/
theorem witness_invariants :
    (∃ t, step State.reset = .next t ∧ PcInvariant State.reset ∧ StateInvariant State.reset) ∧
    (∃ t, step (atPc 0x8003FFFC#32) = .next t ∧ PcInvariant (atPc 0x8003FFFC#32) ∧ StateInvariant (atPc 0x8003FFFC#32)) := by
  refine ⟨⟨_, rfl, ?_, ?_⟩, ⟨_, rfl, ?_, ?_⟩⟩ <;> simp only [PcInvariant, StateInvariant] <;> decide
/-- `HostOperationsKeepTheStateInvariant`: an operation that completes, one that is fatal, and a loader that is fatal. -/
theorem witness_host_operations : StateInvariant State.reset ∧
    (∃ t, (perform (.load 0x80000000#32 [1#8]) State.reset).stateAfter? = some t) ∧
    (∃ t, (perform (.fetch32 0#32) State.reset).stateAfter? = some t) ∧
    (∃ t, (runLoader .unparsable State.reset).stateAfter? = some t) := by
  refine ⟨?_, ⟨_, rfl⟩, ⟨_, rfl⟩, ⟨_, rfl⟩⟩
  simp only [StateInvariant]; decide
/-- `RunLengthIsBoundedByTheWindow` and `RunEmitsOneEventAStep`: reset, and the run lengths at the bound. -/
theorem witness_run : State.reset.status = .running ∧ programCounter State.reset.regs = 0x80000000#32 ∧
    65536 ≤ 65536 ∧ 65536 < 65537 := by decide
/-- `ControlFlowIgnoresRegistersAndMemory`: two machines that differ in memory. -/
theorem witness_two_machines : programCounter State.reset.regs = programCounter (withWord 0xFFFFFFFF#32).regs ∧
    State.reset.status = (withWord 0xFFFFFFFF#32).status ∧ State.reset ≠ withWord 0xFFFFFFFF#32 := by decide
/-- `LoaderFailureIsFatal`: a loader that gets past a segment, and an image that leaves a state. -/
theorem witness_loader : State.reset.status = .running ∧
    (∃ t, runLoader (.parsed [.segment 0x80000000#32 [1#8]]) State.reset = .ok () t) ∧
    (∃ t, (runLoader (.parsed [.unreadable]) State.reset).stateAfter? = some t) := ⟨rfl, ⟨_, rfl⟩, ⟨_, rfl⟩⟩
/-- `DumpReproducesTheLoadedBytes`: sixteen bytes loaded and one row. -/
theorem witness_dump : State.reset.status = .running ∧ Memory.wf State.reset.mem = true ∧
    16 * 1 ≤ (List.replicate 16 (7#8 : Byte)).length ∧
    ∃ t, perform (.load 0x80000000#32 (List.replicate 16 7#8)) State.reset = .ok .none t :=
  ⟨rfl, rfl, by decide, _, rfl⟩

end Sys2Proof.Tests
end

section
/-! The invariants of the state: construction meets them, and every step, every operation of the host and the loader keep them
(spec/10_state.md R13, R18, R24). -/

namespace Sys2Proof.Machine

/-! ## Construction -/

@[simp] theorem readX_reset (i : BitVec 5) : readX State.reset.regs i = 0#32 := by
  revert i; decide

@[simp] theorem slot0_reset : State.reset.regs[0] = 0#32 := by decide

theorem perform_reset (s : State) : perform .reset s = .ok .none State.reset := rfl

theorem pcInvariant_reset : PcInvariant State.reset := by
  unfold PcInvariant
  rw [programCounter_reset]
  decide

theorem stateInvariant_reset : StateInvariant State.reset := ⟨rfl, slot0_reset⟩

/-! ## A step -/

theorem stateInvariant_advanced {s : State} (h : StateInvariant s) : StateInvariant (advanced s) := by
  obtain ⟨hmem, hslot⟩ := h
  exact ⟨hmem, by rw [advanced_regs, slot0_setPc, hslot]⟩

/-- A fetch in bounds leaves four bytes up to `MEM_END`, so the PC stays in the window (R18). -/
theorem pcInvariant_advanced {s : State} (hb : InBounds (programCounter s.regs) 4) (h : PcInvariant s) :
    PcInvariant (advanced s) := by
  have hpc : (programCounter (advanced s).regs).toNat = (programCounter s.regs).toNat + 4 :=
    (steppedOver_advanced (pcAdvances_of_inBounds hb)).pc
  rw [inBounds_iff] at hb
  obtain ⟨haligned, hbase, -⟩ := h
  simp only [PcInvariant, Config.base, Config.memEnd, Config.memSize] at hbase ⊢
  omega

/-- What an operation `step` that completes leaves: the state stepped over (R94). -/
theorem stepWithEvent_eq_ok {s : State} {r : State × LogEvent} (h : stepWithEvent s = .ok r) : r.1 = advanced s := by
  unfold stepWithEvent at h
  cases hw : fetchWord s with
  | ok word =>
    rw [hw, Result.bind_ok, retire_eq] at h
    split at h <;> cases h
    rfl
  | fault why => simp [hw] at h
  | refused why => simp [hw] at h

/-! ## The register file's operations keep slot 0 -/

theorem slot0_setSlot {r r' : RegFile} {index : Nat} {v : Word} (h : setSlot r index v = .ok r') : r'[0] = r[0] := by
  unfold setSlot at h
  split at h
  · cases h; exact slot0_writeX ..
  · split at h <;> cases h
    exact slot0_setPc ..

theorem slot0_advancePc {r r' : RegFile} (h : advancePc r = .ok r') : r'[0] = r[0] := by
  rw [advancePc_eq] at h
  split at h <;> cases h
  exact slot0_setPc ..

/-! ## Every operation of the host -/

theorem stateInvariant_raiseFatal {s : State} (why : Fault) (h : StateInvariant s) : StateInvariant (raiseFatal why s) := h

/-- A result that is answered beside the old state leaves the old state: the shape of every operation that only reads. -/
theorem eq_of_map_pair_ok {α : Type} {r : Result α} {f : α → OpValue} {s t : State} {v : OpValue}
    (h : (r.map fun a => (f a, s)) = .ok (v, t)) : t = s := by
  obtain ⟨a, -, ha⟩ := Result.map_eq_ok h
  exact (Prod.mk.inj ha).2.symm

/-- A result that becomes the registers keeps the invariant if it keeps slot 0. -/
theorem stateInvariant_of_map_regs {s t : State} {v : OpValue} {r : Result RegFile}
    (h : (r.map fun regs => (OpValue.none, { s with regs := regs })) = .ok (v, t))
    (hr : ∀ regs, r = .ok regs → regs[0] = s.regs[0]) (hs : StateInvariant s) : StateInvariant t := by
  obtain ⟨hmem, hslot⟩ := hs
  obtain ⟨regs, hregs, heq⟩ := Result.map_eq_ok h
  cases heq
  exact ⟨hmem, (hr regs hregs).trans hslot⟩

/-- A `load` that becomes the memory keeps the invariant (R88). -/
theorem stateInvariant_of_map_load {s t : State} {v : OpValue} {a : Word} {bytes : List Byte}
    (h : ((load s.mem a bytes).map fun mem => (OpValue.none, { s with mem := mem })) = .ok (v, t))
    (hs : StateInvariant s) : StateInvariant t := by
  obtain ⟨hmem, hslot⟩ := hs
  obtain ⟨mem, hload, heq⟩ := Result.map_eq_ok h
  cases heq
  exact ⟨wf_load hload hmem, hslot⟩

/-- Every operation that completes keeps the state invariant. -/
theorem stateInvariant_opEffect {op : HostOp} {s t : State} {v : OpValue} (h : opEffect op s = .ok (v, t))
    (hs : StateInvariant s) : StateInvariant t := by
  cases op with
  | bitrange => exact eq_of_map_pair_ok h ▸ hs
  | signExt => exact eq_of_map_pair_ok h ▸ hs
  | decode => cases h; exact hs
  | get => exact eq_of_map_pair_ok h ▸ hs
  | set => exact stateInvariant_of_map_regs h (fun _ => slot0_setSlot) hs
  | programCounter => cases h; exact hs
  | advancePc => exact stateInvariant_of_map_regs h (fun _ => slot0_advancePc) hs
  | load => exact stateInvariant_of_map_load h hs
  | fetch32 => exact eq_of_map_pair_ok h ▸ hs
  | store32 => exact stateInvariant_of_map_load h hs
  | step =>
    obtain ⟨r, hstep, heq⟩ := Result.map_eq_ok h
    cases heq
    rw [stepWithEvent_eq_ok hstep]
    exact stateInvariant_advanced hs
  | reset => cases h; exact stateInvariant_reset
  | memoryDump => cases h; exact hs
  | registerDump => cases h; exact hs

/-- The two ways an operation leaves a state: it completes with its effect, or a fatal error changes the status alone
(R8, R152). -/
theorem perform_stateAfter {op : HostOp} {s t : State} (h : (perform op s).stateAfter? = some t) :
    (∃ v, opEffect op s = .ok (v, t)) ∨ ∃ why, t = raiseFatal why s := by
  have houtcome : (outcomeFrom s (opEffect op s)).stateAfter? = some t := by
    unfold perform at h
    split at h
    · rename_i hop; rwa [hop]
    · cases hs : s.status with
      | running => rwa [hs] at h
      | fatal why => rw [hs] at h; cases h
  cases hr : opEffect op s with
  | ok p => rw [hr] at houtcome; cases houtcome; exact .inl ⟨p.1, rfl⟩
  | fault why => rw [hr] at houtcome; cases houtcome; exact .inr ⟨why, rfl⟩
  | refused why => rw [hr] at houtcome; cases houtcome

theorem stateInvariant_perform {op : HostOp} {s t : State} (hs : StateInvariant s)
    (h : (perform op s).stateAfter? = some t) : StateInvariant t := by
  obtain ⟨v, hok⟩ | ⟨why, rfl⟩ := perform_stateAfter h
  · exact stateInvariant_opEffect hok hs
  · exact stateInvariant_raiseFatal why hs

/-! ## The loader -/

/-- The loader only loads, so each segment keeps the invariant and so does the walk (R175 to R178). -/
theorem stateInvariant_loadItems (items : List LoadItem) {s t : State} (hs : StateInvariant s)
    (h : (loadItems items s).stateAfter? = some t) : StateInvariant t := by
  induction items generalizing s with
  | nil => cases h; exact hs
  | cons item rest ih =>
    cases item with
    | unreadable => cases h; exact stateInvariant_raiseFatal _ hs
    | segment vaddr bytes =>
      unfold loadItems at h
      split at h
      · cases hp : perform (.load vaddr bytes) s with
        | ok v s' =>
          rw [hp] at h
          exact ih (stateInvariant_perform hs (by rw [hp]; rfl)) h
        | fatal why s' =>
          rw [hp] at h
          exact stateInvariant_perform hs (by rw [hp]; exact h)
        | refuse why => rw [hp] at h; cases h
      · exact ih hs h

theorem stateInvariant_runLoader {image : Image} {s t : State} (hs : StateInvariant s)
    (h : (runLoader image s).stateAfter? = some t) : StateInvariant t := by
  unfold runLoader at h
  split at h
  · cases h
  · cases image with
    | unparsable => cases h; exact stateInvariant_raiseFatal _ hs
    | parsed items => exact stateInvariant_loadItems items hs h

/-! ## Lists of `set` calls -/

/-- A register read after a write: the value written, or the old one. -/
theorem readX_writeX (r : RegFile) {i : BitVec 5} (hi : i ≠ 0#5) (j : BitVec 5) (v : Word) :
    readX (writeX r j v) i = if j = i then v else readX r i := by
  split
  · rename_i hji
    rw [hji, readX_writeX_same r hi]
  · rename_i hji
    exact readX_writeX_other r (Ne.symm hji) v

/-- The host's `set` at a general register (R82). -/
theorem perform_set {s : State} (hs : s.status = .running) (i : BitVec 5) (v : Word) :
    perform (.set i.toNat v) s = .ok .none { s with regs := writeX s.regs i v } := by
  have hset : setSlot s.regs i.toNat v = .ok (writeX s.regs i v) := by
    unfold setSlot
    rw [if_pos i.isLt, BitVec.ofNat_toNat, BitVec.setWidth_eq]
  rw [perform_running hs]
  simp only [opEffect, hset]
  rfl

/-- The registers after a list of writes in order. -/
def writeAll (r : RegFile) (writes : List (BitVec 5 × Word)) : RegFile :=
  writes.foldl (fun r p => writeX r p.1 p.2) r

theorem performAll_sets (writes : List (BitVec 5 × Word)) {s : State} (hs : s.status = .running) :
    ∃ vs, performAll (writes.map fun p => .set p.1.toNat p.2) s = .ok vs { s with regs := writeAll s.regs writes } := by
  induction writes generalizing s with
  | nil => exact ⟨[], rfl⟩
  | cons p rest ih =>
    obtain ⟨vs, hrest⟩ := ih (s := { s with regs := writeX s.regs p.1 p.2 }) hs
    exact ⟨_, performAll_cons_ok (perform_set hs p.1 p.2) hrest⟩

/-- The last write of a register stands (R87). -/
theorem readX_writeAll (writes : List (BitVec 5 × Word)) (r : RegFile) {i : BitVec 5} (hi : i ≠ 0#5) :
    readX (writeAll r writes) i = writes.foldl (fun old p => if p.1 = i then p.2 else old) (readX r i) := by
  induction writes generalizing r with
  | nil => rfl
  | cons p rest ih => exact (ih (writeX r p.1 p.2)).trans (by rw [readX_writeX r hi, List.foldl_cons])

theorem programCounter_writeAll (writes : List (BitVec 5 × Word)) (r : RegFile) :
    programCounter (writeAll r writes) = programCounter r := by
  induction writes generalizing r with
  | nil => rfl
  | cons p rest ih => exact (ih (writeX r p.1 p.2)).trans (programCounter_writeX ..)

/-! ## The statements -/

/-- Settles O48: a step that answers a next state is an advance whose fetch was in bounds. -/
theorem stepKeepsThePcInvariant : Obligations.StepKeepsThePcInvariant := by
  intro s t hstep hpc hstate
  obtain ⟨⟨hrunning, hbounds⟩, rfl⟩ := step_eq_next hstep
  exact ⟨pcInvariant_advanced hbounds hpc, stateInvariant_advanced hstate, hrunning⟩

/-- Settles O50: each operation's effect keeps the invariant, a fatal error changes the status alone, and the loader only loads. -/
theorem hostOperationsKeepTheStateInvariant : Obligations.HostOperationsKeepTheStateInvariant :=
  ⟨fun _ _ _ => stateInvariant_perform, fun _ _ _ => stateInvariant_runLoader⟩

/-- Settles O25: the list of calls is a fold of register writes, by induction on the list. -/
theorem afterAnySetsLastWriteStands : Obligations.AfterAnySetsLastWriteStands := by
  intro s writes hs
  obtain ⟨vs, hsets⟩ := performAll_sets writes hs
  exact ⟨vs, _, hsets, readX_zero _, fun i hi => readX_writeAll writes s.regs hi,
    programCounter_writeAll writes s.regs, rfl, rfl⟩

/-- Settles O1, from what construction leaves in each part of the state. -/
theorem constructionLeavesResetState : Obligations.ConstructionLeavesResetState :=
  ⟨programCounter_reset, readX_reset, slot0_reset, fun _ => rfl, reset_status, perform_reset⟩

/-- Settles O49: the base case of O48 and O50. -/
theorem invariantsHoldAtReset : Obligations.InvariantsHoldAtReset :=
  ⟨pcInvariant_reset, stateInvariant_reset, reset_status⟩

end Sys2Proof.Machine
end

section
/-! The memory: where a load is legal, what a list of loads leaves, and the fetch of what was stored
(spec/20_memory.md R28, R31, R33, R37, R39). -/

namespace Sys2Proof.Machine

/-! ## The bounds of a load at the edges of the window -/

/-- No byte at all is in bounds from `BASE` to `MEM_END`, both included (decision D13). -/
theorem inBounds_zero_iff (a : Word) : InBounds a 0 ↔ 0x80000000 ≤ a.toNat ∧ a.toNat ≤ 0x80040000 :=
  inBounds_iff a 0

/-- From `BASE` the whole buffer is in bounds and no more (R28). -/
theorem inBounds_base_iff (n : Nat) : InBounds 0x80000000#32 n ↔ n ≤ 262144 := by
  have hbase : (0x80000000#32).toNat = 0x80000000 := rfl
  rw [inBounds_iff, hbase]
  omega

/-- A host's `load` of no bytes, in bounds, leaves the state as it was (decision D13). -/
theorem perform_load_nil {s : State} (hs : s.status = .running) {a : Word} (h : InBounds a 0) :
    perform (.load a []) s = .ok .none s := perform_load hs h

/-- A host's `load` out of bounds writes no byte (R28, R152). -/
theorem perform_load_fatal_mem {s : State} (hs : s.status = .running) {a : Word} {bytes : List Byte}
    (h : ¬ InBounds a bytes.length) :
    ∃ t, perform (.load a bytes) s = .fatal (.boundsViolation a bytes.length) t ∧ t.mem = s.mem :=
  ⟨_, perform_load_fatal hs h, raiseFatal_mem ..⟩

/-! ## Lists of loads -/

/-- The memory after a list of in-bounds loads in order. -/
def loadAll (m : Memory) (loads : List (Word × List Byte)) : Memory :=
  loads.foldl (fun m p => Memory.writeBytes m (offsetOf p.1) p.2) m

/-- The room an in-bounds range leaves in the buffer, said of its offset (R26, R27). -/
theorem offsetOf_add_le {a : Word} {n : Nat} (h : InBounds a n) : offsetOf a + n ≤ Config.memSize := h.2

theorem performAll_loads (loads : List (Word × List Byte)) {s : State} (hs : s.status = .running)
    (hb : ∀ p ∈ loads, InBounds p.1 p.2.length) :
    ∃ vs, performAll (loads.map fun p => .load p.1 p.2) s = .ok vs { s with mem := loadAll s.mem loads } := by
  induction loads generalizing s with
  | nil => exact ⟨[], rfl⟩
  | cons p rest ih =>
    obtain ⟨hp, hrest⟩ := List.forall_mem_cons.mp hb
    obtain ⟨vs, hvs⟩ := ih (s := { s with mem := Memory.writeBytes s.mem (offsetOf p.1) p.2 }) hs hrest
    exact ⟨_, performAll_cons_ok (perform_load hs hp) hvs⟩

/-- The most recent load of a byte stands (R37). -/
theorem read_loadAll (loads : List (Word × List Byte)) {m : Memory} (hm : Memory.wf m = true)
    (hb : ∀ p ∈ loads, InBounds p.1 p.2.length) (o : Nat) :
    Memory.read (loadAll m loads) o
      = loads.foldl (fun old p => if offsetOf p.1 ≤ o then p.2.getD (o - offsetOf p.1) old else old)
          (Memory.read m o) := by
  induction loads generalizing m with
  | nil => rfl
  | cons p rest ih =>
    obtain ⟨hp, hrest⟩ := List.forall_mem_cons.mp hb
    have hroom := offsetOf_add_le hp
    rw [List.foldl_cons, ← Memory.read_writeBytes p.2 o hroom hm]
    exact ih (Memory.wf_writeBytes p.2 hroom hm) hrest

/-! ## The fetch of a stored word -/

/-- The bytes of a word written in a canonical memory read back as the word (R31, R93). -/
theorem readWord_writeBytes_bytesOfWord {m : Memory} (hm : Memory.wf m = true) {o : Nat}
    (ho : o + 4 ≤ Config.memSize) (w : Word) :
    Memory.readWord (Memory.writeBytes m o (Codec.bytesOfWord w)) o = w :=
  (readWord_writeBytes hm ho ..).trans (Codec.wordOfBytes_bytesOfWord w)

/-- A step that fetches a word runs the instruction it is tagged with (R94). -/
theorem step_of_fetchWord {s : State} {w : Word} (h : fetchWord s = .ok w) : step s = exec (decodeWord w) s := by
  unfold step
  rw [h]

/-- A machine that can step fetches the word whose bytes were written at its PC, and runs it (R39, R179). -/
theorem fetches_and_runs_written {t : State} (ht : CanStep t) {m : Memory} (hm : Memory.wf m = true) {w : Word}
    (hmem : t.mem = Memory.writeBytes m (offsetOf (programCounter t.regs)) (Codec.bytesOfWord w)) :
    fetchWord t = .ok w ∧ step t = exec (decodeWord w) t := by
  obtain ⟨hrunning, hbounds⟩ := ht
  have hword : fetched t = w := by
    rw [fetched, hmem, readWord_writeBytes_bytesOfWord hm (offsetOf_add_le hbounds)]
  have hfetch : fetchWord t = .ok w := by
    simp only [fetchWord_eq, hrunning, if_pos hbounds, hword]
  exact ⟨hfetch, step_of_fetchWord hfetch⟩

/-- The state with a word's bytes written at the PC. -/
def storedAtPc (s : State) (w : Word) : State where
  regs := s.regs
  mem := Memory.writeBytes s.mem (offsetOf (programCounter s.regs)) (Codec.bytesOfWord w)
  status := s.status

/-- The host's `store32` at the PC of a machine that can step, a four-byte `load` (R92, decision D14). -/
theorem perform_store32_pc {s : State} (hs : CanStep s) (w : Word) :
    perform (.store32 (programCounter s.regs) w) s = .ok .none (storedAtPc s w) := by
  obtain ⟨hrunning, hbounds⟩ := hs
  exact perform_load hrunning (bytes := Codec.bytesOfWord w) hbounds

/-- The bytes of a row's word that is a word are that word's bytes (R31, R40). -/
theorem tableBytes_toNat (w : Word) : tableBytes w.toNat = Codec.bytesOfWord w := by
  unfold tableBytes
  rw [BitVec.ofNat_toNat, BitVec.setWidth_eq]

/-- The bytes of a word decode to its instruction, and no byte is left (R40). -/
theorem decodeBytes_bytesOfWord (w : Word) : decodeBytes (Codec.bytesOfWord w) = .ok (decodeWord w, []) :=
  congrArg (fun v => Except.ok (decodeWord v, [])) (Codec.wordOfBytes_bytesOfWord w)

theorem decodeTableWord_toNat (w : Word) : decodeTableWord 32 w.toNat = some (decodeWord w) := by
  unfold decodeTableWord
  rw [tableBytes_toNat, decodeBytes_bytesOfWord]
  rfl

/-- A machine with a program word placed can step: its PC is the old one, in bounds, or the reset PC (log entry 14). -/
theorem canStep_withFetchWord (s : State) (nbits w : Nat) : CanStep (s.withFetchWord nbits w) := by
  refine ⟨rfl, ?_⟩
  unfold State.withFetchWord placeFetchWord
  by_cases h : InBounds (programCounter s.regs) 4
  · simpa only [if_pos h] using h
  · simp only [if_neg h, programCounter_setPc]
    decide

/-- A placed word's bytes are written at the PC the machine then has (log entry 14). -/
theorem withFetchWord_mem (s : State) (nbits : Nat) (w : Word) :
    (s.withFetchWord nbits w.toNat).mem = Memory.writeBytes s.mem
      (offsetOf (programCounter (s.withFetchWord nbits w.toNat).regs)) (Codec.bytesOfWord w) := by
  rw [← tableBytes_toNat]
  rfl

/-! ## The alignment of a fetch -/

/-- In bounds, `fetch32` looks at the alignment alone, and only under `refuse` (R33). -/
theorem fetch32With_of_inBounds (policy : MisalignedPolicy) (m : Memory) {a : Word} (h : InBounds a 4) :
    fetch32With policy m a = if policy = .refuse ∧ a.toNat % 4 ≠ 0 then .refused (.misalignedFetch a)
      else .ok (Memory.readWord m (offsetOf a)) := if_pos h

/-! ## The statements -/

/-- Settles O27: each clause is a bounds check at an edge, and what `load` does on either side of it. -/
theorem loadAtTheEdgesOfTheWindow : Obligations.LoadAtTheEdgesOfTheWindow := by
  refine ⟨fun s a hs => ⟨fun ha => ?_, fun ha => ?_⟩, fun s bytes hs => ⟨fun hlen => ?_, fun hlen => ?_⟩,
    fun s b c hs => ⟨?_, ?_, ?_⟩⟩
  · exact perform_load_nil hs ((inBounds_zero_iff a).mpr ha)
  · have hout : ¬ InBounds a 0 := by rw [inBounds_zero_iff]; omega
    exact perform_load_fatal hs hout
  · exact ⟨_, perform_load hs ((inBounds_base_iff _).mpr hlen.le)⟩
  · exact perform_load_fatal_mem hs (mt (inBounds_base_iff _).mp hlen.not_ge)
  · have hin : InBounds 0x8003FFFF#32 1 := by decide
    exact ⟨_, perform_load hs hin⟩
  · have hout : ¬ InBounds 0x8003FFFF#32 2 := by decide
    exact perform_load_fatal_mem hs hout
  · have hout : ¬ InBounds 0x7FFFFFFF#32 2 := by decide
    exact perform_load_fatal_mem hs hout

/-- Settles O31: the list of loads is a fold of range writes, by induction on the list. -/
theorem mostRecentLoadOfEachByteStands : Obligations.MostRecentLoadOfEachByteStands := by
  intro s loads hs hm hb
  obtain ⟨vs, hloads⟩ := performAll_loads loads hs hb
  exact ⟨vs, _, hloads, fun o => read_loadAll loads hm hb o, rfl, rfl⟩

/-- Settles O32: both ways to place a word leave a machine that can step with the word's bytes at its PC. -/
theorem storedWordIsTheNextFetched : Obligations.StoredWordIsTheNextFetched := by
  refine ⟨fun s w hcan hm => ?_, fun s w hm => ?_⟩
  · exact ⟨_, perform_store32_pc hcan w, fetches_and_runs_written (t := storedAtPc s w) hcan hm rfl⟩
  · obtain ⟨hfetch, hstep⟩ := fetches_and_runs_written (canStep_withFetchWord s 32 w.toNat) hm
      (withFetchWord_mem s 32 w)
    exact ⟨hfetch, hstep, decodeTableWord_toNat w⟩

/-- Settles O29, from what `fetch32` does in bounds under each value of its parameter. -/
theorem misalignedFetchFollowsItsParameter : Obligations.MisalignedFetchFollowsItsParameter := by
  intro m a hb
  have hbytewise : fetch32With .bytewise m a = .ok (Memory.readWord m (offsetOf a)) := by
    rw [fetch32With_of_inBounds .bytewise m hb, if_neg (by simp)]
  refine ⟨fun hmisaligned => ?_, fun haligned => ?_, hbytewise, rfl⟩
  · rw [fetch32With_of_inBounds .refuse m hb, if_pos ⟨rfl, hmisaligned⟩]
  · rw [hbytewise, fetch32With_of_inBounds .refuse m hb, if_neg fun h => h.2 haligned]

end Sys2Proof.Machine
end

section
/-! The decoder's outputs as slices of the word (spec/41_decoder.md R65 to R75), and the identities they share
(spec/30_encoding.md R41, R49). -/

namespace Sys2Proof

/-! ## Slices of bit vectors -/

/-- A slice of a slice. -/
theorem extractLsb'_extractLsb' {m : Nat} (x : BitVec m) {start len start' len' : Nat} (h : start + len ≤ len') :
    (x.extractLsb' start' len').extractLsb' start len = x.extractLsb' (start' + start) len := by
  apply BitVec.eq_of_getLsbD_eq
  intro i hi
  simp [hi, Nat.add_assoc, show start + i < len' by omega]

/-- The slice of a whole vector, with its start still to be evaluated. -/
theorem extractLsb'_of_eq_zero {m : Nat} (x : BitVec m) {start : Nat} (h : start = 0) : x.extractLsb' start m = x := by
  rw [h, BitVec.extractLsb'_eq_self]

/-- A slice of the source bits of a sign extension. -/
theorem extractLsb'_signExtend {m v : Nat} (x : BitVec m) {start len : Nat} (hm : start + len ≤ m) (hv : m ≤ v) :
    (x.signExtend v).extractLsb' start len = x.extractLsb' start len := by
  rw [BitVec.signExtend_eq_append_of_le hv, BitVec.extractLsb'_cast, BitVec.extractLsb'_append_eq_of_add_le hm]

/-- The source bits of a sign extension. -/
theorem setWidth_signExtend {m v : Nat} (x : BitVec m) (h : m ≤ v) : (x.signExtend v).setWidth m = x := by
  rw [BitVec.setWidth_eq_extractLsb' h, extractLsb'_signExtend x (by omega) h, BitVec.extractLsb'_eq_self]

/-- Two neighbouring fields at their places are the fields joined. -/
theorem shiftLeft_or_shiftLeft {m n v : Nat} (x : BitVec m) (y : BitVec n) (k : Nat) :
    x.setWidth v <<< (n + k) ||| y.setWidth v <<< k = (x ++ y).setWidth v <<< k := by
  rw [BitVec.shiftLeft_add, ← BitVec.shiftLeft_or_distrib, ← BitVec.setWidth_append_eq_shiftLeft_setWidth_or]

/-- A field at its place is the field over zeros. -/
theorem setWidth_shiftLeft {m v : Nat} (x : BitVec m) (k : Nat) : x.setWidth v <<< k = (x ++ 0#k).setWidth v := by
  rw [BitVec.setWidth_append_eq_shiftLeft_setWidth_or]; simp

/-- Four neighbouring fields at their places are the fields joined over zeros. -/
theorem four_fields_joined {a b c d v : Nat} (x : BitVec a) (y : BitVec b) (z : BitVec c) (t : BitVec d) (k : Nat) :
    x.setWidth v <<< (b + (c + (d + k))) ||| y.setWidth v <<< (c + (d + k)) ||| z.setWidth v <<< (d + k)
      ||| t.setWidth v <<< k = (x ++ y ++ z ++ t ++ 0#k).setWidth v := by
  rw [shiftLeft_or_shiftLeft, shiftLeft_or_shiftLeft, shiftLeft_or_shiftLeft, setWidth_shiftLeft]

/-- Bit 0 as a slice, of an even vector. -/
theorem zero_eq_extractLsb'_of_even {m : Nat} {x : BitVec m} (h : x.getLsbD 0 = false) : 0#1 = x.extractLsb' 0 1 := by
  apply BitVec.eq_of_getLsbD_eq
  intro i hi
  obtain rfl : i = 0 := by omega
  simp [h]

namespace Codec

/-- `bitrange` is the slice with zeros above it. -/
theorem bitrange_eq_setWidth (w : Word) {hi lo : Nat} (n : Nat) (h : lo ≤ hi) (h' : hi < 32) (hn : n = hi - lo + 1) :
    bitrange w hi lo = (w.extractLsb' lo n).setWidth 32 := by
  apply BitVec.eq_of_getLsbD_eq
  intro i hi'
  have hin : decide (i ≤ hi - lo) = decide (i < n) := decide_eq_decide.mpr (by omega)
  rw [bitrange_getLsbD w h h', BitVec.getLsbD_setWidth, BitVec.getLsbD_extractLsb', hin, decide_eq_true hi',
    Bool.true_and]

/-- `sign_ext` of a field with zeros above it is the field's sign extension. -/
theorem signExt_of_eq_setWidth {v : Word} {n : Nat} {x : BitVec n} (h : v = x.setWidth 32) (h1 : 1 ≤ n)
    (h2 : n ≤ 32) : signExt v n = x.signExtend 32 := by
  have fits : ∀ j, n ≤ j → v.getLsbD j = false := fun j hj => by
    rw [h, BitVec.getLsbD_setWidth, BitVec.getLsbD_of_ge x j hj, Bool.and_false]
  apply BitVec.eq_of_getLsbD_eq
  intro i hi
  rw [signExt_getLsbD v h1 h2 fits, BitVec.getLsbD_signExtend, h]
  simp [hi, BitVec.msb_eq_getLsbD_last, show n - 1 < 32 by omega]

end Codec

open Codec

/-! ## The fixed fields (R65 to R70) -/

theorem decode_rd (w : Word) : (decode w).rd = w.extractLsb' 7 5 := bitrange_setWidth w (by omega) (by omega) rfl
theorem decode_funct3 (w : Word) : (decode w).funct3 = w.extractLsb' 12 3 :=
  bitrange_setWidth w (by omega) (by omega) rfl
theorem decode_rs1 (w : Word) : (decode w).rs1 = w.extractLsb' 15 5 := bitrange_setWidth w (by omega) (by omega) rfl
theorem decode_rs2 (w : Word) : (decode w).rs2 = w.extractLsb' 20 5 := bitrange_setWidth w (by omega) (by omega) rfl
theorem decode_funct7 (w : Word) : (decode w).funct7 = w.extractLsb' 25 7 :=
  bitrange_setWidth w (by omega) (by omega) rfl

/-! ## The immediates (R71 to R75) -/

/-- The 12 bits of the S-type immediate, joined (R45). -/
def immSBits (w : Word) : BitVec 12 := w.extractLsb' 25 7 ++ w.extractLsb' 7 5

/-- The 13 bits of the B-type immediate, put in order (R46). -/
def immBBits (w : Word) : BitVec 13 :=
  w.extractLsb' 31 1 ++ w.extractLsb' 7 1 ++ w.extractLsb' 25 6 ++ w.extractLsb' 8 4 ++ 0#1

/-- The 21 bits of the J-type immediate, put in order (R48). -/
def immJBits (w : Word) : BitVec 21 :=
  w.extractLsb' 31 1 ++ w.extractLsb' 12 8 ++ w.extractLsb' 20 1 ++ w.extractLsb' 21 10 ++ 0#1

theorem decode_immI (w : Word) : (decode w).immI = (w.extractLsb' 20 12).signExtend 32 :=
  signExt_of_eq_setWidth (bitrange_eq_setWidth w 12 (by omega) (by omega) rfl) (by omega) (by omega)

theorem decode_immS (w : Word) : (decode w).immS = (immSBits w).signExtend 32 := by
  have hjoin : (bitrange w 31 25 <<< 5) ||| bitrange w 11 7 = (immSBits w).setWidth 32 := by
    rw [bitrange_eq_setWidth w 7 (by omega) (by omega) rfl, bitrange_eq_setWidth w 5 (by omega) (by omega) rfl]
    exact BitVec.setWidth_append_eq_shiftLeft_setWidth_or.symm
  exact signExt_of_eq_setWidth hjoin (by omega) (by omega)

theorem decode_immB (w : Word) : (decode w).immB = (immBBits w).signExtend 32 := by
  have hreorder (a b c d : Word) : a ||| b ||| c ||| d = a ||| d ||| b ||| c := by ac_rfl
  have hjoin : (bit w 31 <<< 12) ||| (bitrange w 30 25 <<< 5) ||| (bitrange w 11 8 <<< 1) ||| (bit w 7 <<< 11)
      = (immBBits w).setWidth 32 := by
    rw [bit, bit, bitrange_eq_setWidth w 1 (by omega) (by omega) rfl,
      bitrange_eq_setWidth w 6 (by omega) (by omega) rfl, bitrange_eq_setWidth w 4 (by omega) (by omega) rfl,
      bitrange_eq_setWidth w 1 (by omega) (by omega) rfl, hreorder]
    exact four_fields_joined (w.extractLsb' 31 1) (w.extractLsb' 7 1) (w.extractLsb' 25 6) (w.extractLsb' 8 4) 1
  exact signExt_of_eq_setWidth hjoin (by omega) (by omega)

theorem decode_immU (w : Word) : (decode w).immU = w.extractLsb' 12 20 ++ 0#12 := by
  have hplace : bitrange w 31 12 <<< 12 = (w.extractLsb' 12 20 ++ 0#12 : BitVec 32).setWidth 32 := by
    rw [bitrange_eq_setWidth w 20 (by omega) (by omega) rfl, setWidth_shiftLeft]
  calc (decode w).immU = (w.extractLsb' 12 20 ++ 0#12 : BitVec 32).signExtend 32 :=
        signExt_of_eq_setWidth hplace (by omega) (by omega)
    _ = w.extractLsb' 12 20 ++ 0#12 := BitVec.signExtend_eq _

theorem decode_immJ (w : Word) : (decode w).immJ = (immJBits w).signExtend 32 := by
  have hjoin : (bit w 31 <<< 20) ||| (bitrange w 19 12 <<< 12) ||| (bit w 20 <<< 11) ||| (bitrange w 30 21 <<< 1)
      = (immJBits w).setWidth 32 := by
    rw [bit, bit, bitrange_eq_setWidth w 1 (by omega) (by omega) rfl,
      bitrange_eq_setWidth w 8 (by omega) (by omega) rfl, bitrange_eq_setWidth w 1 (by omega) (by omega) rfl,
      bitrange_eq_setWidth w 10 (by omega) (by omega) rfl]
    exact four_fields_joined (w.extractLsb' 31 1) (w.extractLsb' 12 8) (w.extractLsb' 20 1) (w.extractLsb' 21 10) 1
  exact signExt_of_eq_setWidth hjoin (by omega) (by omega)

/-- The whole record, slice by slice. -/
theorem decode_eq_slices (w : Word) : decode w =
    { opcode := w.extractLsb' 0 7, funct3 := w.extractLsb' 12 3, funct7 := w.extractLsb' 25 7
      rd := w.extractLsb' 7 5, rs1 := w.extractLsb' 15 5, rs2 := w.extractLsb' 20 5
      immI := (w.extractLsb' 20 12).signExtend 32, immS := (immSBits w).signExtend 32
      immB := (immBBits w).signExtend 32, immU := w.extractLsb' 12 20 ++ 0#12
      immJ := (immJBits w).signExtend 32 } := by
  rw [← decode_opcode, ← decode_funct3, ← decode_funct7, ← decode_rd, ← decode_rs1, ← decode_rs2,
    ← decode_immI, ← decode_immS, ← decode_immB, ← decode_immU, ← decode_immJ]

/-- The outputs but the opcode are functions of the word's upper 25 bits. -/
theorem decode_of_upper_eq {w v : Word} (h : w >>> 7 = v >>> 7) :
    decode v = { decode w with opcode := v.extractLsb' 0 7 } := by
  have hslice (start len : Nat) (hs : 7 ≤ start) : v.extractLsb' start len = w.extractLsb' start len := by
    apply BitVec.eq_of_getLsbD_eq
    intro i hi
    have hbit := congrArg (fun x : Word => x.getLsbD (start + i - 7)) h
    simp only [BitVec.getLsbD_ushiftRight, show 7 + (start + i - 7) = start + i by omega] at hbit
    simp only [BitVec.getLsbD_extractLsb', hbit]
  simp (disch := omega) only [decode_eq_slices, immSBits, immBBits, immJBits, hslice]

/-! ## The immediates' bits in the word (R49) -/

/-- From the top bit of its source on, a sign extension repeats that bit. -/
theorem getLsbD_signExtend_eq_msb {m v : Nat} (x : BitVec m) {i : Nat} (hm : m ≤ i) (hv : i < v) :
    (x.signExtend v).getLsbD i = x.msb := by
  rw [BitVec.getLsbD_signExtend, if_neg (by omega), decide_eq_true hv, Bool.true_and]

/-- A source bit of a sign extension. -/
theorem getLsbD_signExtend_of_lt {m v : Nat} (x : BitVec m) {i : Nat} (hm : i < m) (hv : m ≤ v) :
    (x.signExtend v).getLsbD i = x.getLsbD i := by
  rw [BitVec.getLsbD_signExtend, if_pos hm, decide_eq_true (by omega), Bool.true_and]

theorem slice_immI (w : Word) {start len : Nat} (h : start + len ≤ 12) :
    (decode w).immI.extractLsb' start len = w.extractLsb' (20 + start) len := by
  rw [decode_immI, extractLsb'_signExtend _ h (by omega), extractLsb'_extractLsb' _ h]

theorem slice_immS_low (w : Word) {start len : Nat} (h : start + len ≤ 5) :
    (decode w).immS.extractLsb' start len = w.extractLsb' (7 + start) len := by
  rw [decode_immS, extractLsb'_signExtend _ (by omega) (by omega), immSBits,
    BitVec.extractLsb'_append_eq_of_add_le h, extractLsb'_extractLsb' _ h]

theorem slice_immS_high (w : Word) {start len : Nat} (h : 5 ≤ start) (h' : start + len ≤ 12) :
    (decode w).immS.extractLsb' start len = w.extractLsb' (20 + start) len := by
  rw [decode_immS, extractLsb'_signExtend _ h' (by omega), immSBits, BitVec.extractLsb'_append_eq_of_le h,
    extractLsb'_extractLsb' _ (by omega), show 25 + (start - 5) = 20 + start by omega]

theorem slice_immB_low (w : Word) : (decode w).immB.extractLsb' 1 4 = w.extractLsb' 8 4 := by
  rw [decode_immB]
  simp (disch := omega) only [extractLsb'_signExtend, immBBits, BitVec.extractLsb'_append_eq_of_le,
    BitVec.extractLsb'_append_eq_of_add_le, extractLsb'_of_eq_zero]

theorem slice_immB_high (w : Word) : (decode w).immB.extractLsb' 5 6 = w.extractLsb' 25 6 := by
  rw [decode_immB]
  simp (disch := omega) only [extractLsb'_signExtend, immBBits, BitVec.extractLsb'_append_eq_of_le,
    BitVec.extractLsb'_append_eq_of_add_le, extractLsb'_of_eq_zero]

theorem bit11_immB (w : Word) : (decode w).immB.getLsbD 11 = w.getLsbD 7 := by
  rw [decode_immB, getLsbD_signExtend_of_lt _ (by omega) (by omega)]
  simp only [immBBits, BitVec.getLsbD_append, BitVec.getLsbD_extractLsb']
  simp

theorem slice_immJ_low (w : Word) {start len : Nat} (h : 1 ≤ start) (h' : start + len ≤ 11) :
    (decode w).immJ.extractLsb' start len = w.extractLsb' (20 + start) len := by
  rw [decode_immJ, extractLsb'_signExtend _ (by omega) (by omega), immJBits, BitVec.extractLsb'_append_eq_of_le h,
    BitVec.extractLsb'_append_eq_of_add_le (by omega), extractLsb'_extractLsb' _ (by omega),
    show 21 + (start - 1) = 20 + start by omega]

theorem slice_immJ_high (w : Word) : (decode w).immJ.extractLsb' 12 8 = w.extractLsb' 12 8 := by
  rw [decode_immJ]
  simp (disch := omega) only [extractLsb'_signExtend, immJBits, BitVec.extractLsb'_append_eq_of_le,
    BitVec.extractLsb'_append_eq_of_add_le, extractLsb'_of_eq_zero]

theorem bit11_immJ (w : Word) : (decode w).immJ.getLsbD 11 = w.getLsbD 20 := by
  rw [decode_immJ, getLsbD_signExtend_of_lt _ (by omega) (by omega)]
  simp only [immJBits, BitVec.getLsbD_append, BitVec.getLsbD_extractLsb']
  simp

theorem slice_immU (w : Word) {start len : Nat} (h : 12 ≤ start) (h' : start + len ≤ 32) :
    (decode w).immU.extractLsb' start len = w.extractLsb' start len := by
  rw [decode_immU, BitVec.extractLsb'_append_eq_of_le h, extractLsb'_extractLsb' _ (by omega),
    show 12 + (start - 12) = start by omega]

/-- Bit 31 of every immediate is the word's. -/
theorem sign_bits (w : Word) :
    (decode w).immI.getLsbD 31 = w.getLsbD 31 ∧ (decode w).immS.getLsbD 31 = w.getLsbD 31 ∧
    (decode w).immB.getLsbD 31 = w.getLsbD 31 ∧ (decode w).immJ.getLsbD 31 = w.getLsbD 31 ∧
    (decode w).immU.getLsbD 31 = w.getLsbD 31 := by
  have htop {m : Nat} (x : BitVec m) (hm : m ≤ 31) (hx : x.msb = w.getLsbD 31) :
      (x.signExtend 32).getLsbD 31 = w.getLsbD 31 := (getLsbD_signExtend_eq_msb x hm (by omega)).trans hx
  rw [decode_immI, decode_immS, decode_immB, decode_immJ, decode_immU]
  refine ⟨htop _ (by omega) ?_, htop _ (by omega) ?_, htop _ (by omega) ?_, htop _ (by omega) ?_, ?_⟩ <;>
    simp only [immSBits, immBBits, immJBits, BitVec.msb_eq_getLsbD_last, BitVec.getLsbD_append,
      BitVec.getLsbD_extractLsb'] <;> simp

theorem bit0_immI (w : Word) : (decode w).immI.getLsbD 0 = w.getLsbD 20 := by
  rw [decode_immI, getLsbD_signExtend_of_lt _ (by omega) (by omega)]
  simp

theorem bit0_immS (w : Word) : (decode w).immS.getLsbD 0 = w.getLsbD 7 := by
  rw [decode_immS, getLsbD_signExtend_of_lt _ (by omega) (by omega)]
  simp only [immSBits, BitVec.getLsbD_append, BitVec.getLsbD_extractLsb']
  simp

/-! ## The statements -/

/-- Settles O6: each field is its slice, and neighbouring slices join. -/
theorem fixedFieldsTileTheWord : Obligations.FixedFieldsTileTheWord := by
  intro w
  refine ⟨?_, decode_opcode w, decode_rd w, decode_funct7 w⟩
  rw [decode_opcode, decode_rd, decode_funct3, decode_rs1, decode_rs2, decode_funct7]
  simp (disch := omega) only [BitVec.extractLsb'_append_extractLsb'_eq_extractLsb', extractLsb'_of_eq_zero]

/-- Settles O12: both sides of each identity are the same bits of the word. -/
theorem fieldsAndImmediatesShareBits : Obligations.FieldsAndImmediatesShareBits := by
  intro w
  obtain ⟨hI, hS, hB, hJ, hU⟩ := sign_bits w
  have hrs1funct3 : (decode w).rs1 ++ (decode w).funct3 = w.extractLsb' 12 8 := by
    rw [decode_rs1, decode_funct3]
    exact BitVec.extractLsb'_append_extractLsb'_eq_extractLsb' rfl
  simp (disch := omega) only [decode_rd, decode_rs2, decode_funct7, hrs1funct3, slice_immI, slice_immS_low,
    slice_immS_high, slice_immB_low, slice_immB_high, slice_immJ_low, slice_immJ_high, slice_immU, bit0_immI, bit0_immS,
    bit11_immB, bit11_immJ, hI, hS, hB, hJ, hU]
  -- what is left are bit 0 of `rd` and bit 0 of `rs2`
  simp

end Sys2Proof
end

section
/-! The encoder's layouts read back by the decoder, and the six views (spec/30_encoding.md R41 to R48, R51). -/

namespace Sys2Proof

/-! ## The instruction's immediates as slices of the word -/

theorem immIOf_decode (w : Word) : immIOf (decode w) = w.extractLsb' 20 12 := by
  rw [immIOf, decode_immI, setWidth_signExtend _ (by omega)]

theorem immSOf_decode (w : Word) : immSOf (decode w) = immSBits w := by
  rw [immSOf, decode_immS, setWidth_signExtend _ (by omega)]

theorem immBOf_decode (w : Word) : immBOf (decode w) = immBBits w := by
  rw [immBOf, decode_immB, setWidth_signExtend _ (by omega)]

theorem immUOf_decode (w : Word) : immUOf (decode w) = w.extractLsb' 12 20 := by
  rw [immUOf, decode_immU, BitVec.extractLsb'_append_eq_left]

theorem immJOf_decode (w : Word) : immJOf (decode w) = immJBits w := by
  rw [immJOf, decode_immJ, setWidth_signExtend _ (by omega)]

/-! ## The views of a word hold it -/

/-- Bit 0 of the B and the J immediate is zero, so every view is well-formed (R46, R48). -/
theorem wellFormed_view (f : Format) (w : Word) : (view f (decode w)).wellFormed = true := by
  cases f with
  | R | I | S | U => rfl
  | B =>
    simp only [view, Instr.wellFormed, immBWellFormed, immBOf_decode, immBBits, BitVec.getLsbD_append]
    simp
  | J =>
    simp only [view, Instr.wellFormed, immJWellFormed, immJOf_decode, immJBits, BitVec.getLsbD_append]
    simp

/-- The fields and the immediate of each view, at their places, are the word again: neighbouring slices of the word
join, and a piece of a scrambled immediate is a slice of the word. -/
theorem encode_view (f : Format) (w : Word) : encode (view f (decode w)) = w := by
  cases f with
  | R | I | U =>
    simp (disch := omega) only [view, encode, encodeR, encodeI, encodeU, decode_opcode, decode_rd, decode_funct3,
      decode_rs1, decode_rs2, decode_funct7, immIOf_decode, immUOf_decode,
      BitVec.extractLsb'_append_extractLsb'_eq_extractLsb', extractLsb'_of_eq_zero]
  | S | B | J =>
    simp (disch := omega) only [view, encode, encodeS, encodeB, encodeJ, decode_opcode, decode_rd, decode_funct3,
      decode_rs1, decode_rs2, immSOf_decode, immBOf_decode, immJOf_decode, immSBits, immBBits, immJBits,
      BitVec.extractLsb'_append_eq_of_le, BitVec.extractLsb'_append_eq_of_add_le,
      BitVec.extractLsb'_append_extractLsb'_eq_extractLsb', extractLsb'_of_eq_zero]

/-! ## The views of a layout -/

theorem view_encodeR (op rd f3 rs1 rs2 f7) :
    view .R (decode (encodeR op rd f3 rs1 rs2 f7)) = .decodeR op rd f3 rs1 rs2 f7 := by
  simp (disch := omega) only [view, decode_opcode, decode_rd, decode_funct3, decode_rs1, decode_rs2, decode_funct7,
    encodeR, BitVec.extractLsb'_append_eq_of_le, BitVec.extractLsb'_append_eq_of_add_le, extractLsb'_of_eq_zero]

theorem view_encodeI (op rd f3 rs1 imm) :
    view .I (decode (encodeI op rd f3 rs1 imm)) = .decodeI op rd f3 rs1 imm := by
  simp (disch := omega) only [view, decode_opcode, decode_rd, decode_funct3, decode_rs1, immIOf_decode, encodeI,
    BitVec.extractLsb'_append_eq_of_le, BitVec.extractLsb'_append_eq_of_add_le, extractLsb'_of_eq_zero]

theorem view_encodeS (op f3 rs1 rs2 imm) :
    view .S (decode (encodeS op f3 rs1 rs2 imm)) = .decodeS op f3 rs1 rs2 imm := by
  simp (disch := omega) only [view, decode_opcode, decode_funct3, decode_rs1, decode_rs2, immSOf_decode, immSBits,
    encodeS, BitVec.extractLsb'_append_eq_of_le, BitVec.extractLsb'_append_eq_of_add_le, extractLsb'_of_eq_zero,
    BitVec.extractLsb'_append_extractLsb'_eq_extractLsb']

theorem view_encodeB (op f3 rs1 rs2 imm) (h : imm.getLsbD 0 = false) :
    view .B (decode (encodeB op f3 rs1 rs2 imm)) = .decodeB op f3 rs1 rs2 imm := by
  simp (disch := omega) only [view, decode_opcode, decode_funct3, decode_rs1, decode_rs2, immBOf_decode, immBBits,
    encodeB, BitVec.extractLsb'_append_eq_of_le, BitVec.extractLsb'_append_eq_of_add_le, extractLsb'_of_eq_zero,
    zero_eq_extractLsb'_of_even h, BitVec.extractLsb'_append_extractLsb'_eq_extractLsb']

theorem view_encodeU (op rd imm) : view .U (decode (encodeU op rd imm)) = .decodeU op rd imm := by
  simp (disch := omega) only [view, decode_opcode, decode_rd, immUOf_decode, encodeU,
    BitVec.extractLsb'_append_eq_of_le, BitVec.extractLsb'_append_eq_of_add_le, extractLsb'_of_eq_zero]

theorem view_encodeJ (op rd imm) (h : imm.getLsbD 0 = false) :
    view .J (decode (encodeJ op rd imm)) = .decodeJ op rd imm := by
  simp (disch := omega) only [view, decode_opcode, decode_rd, immJOf_decode, immJBits, encodeJ,
    BitVec.extractLsb'_append_eq_of_le, BitVec.extractLsb'_append_eq_of_add_le, extractLsb'_of_eq_zero,
    zero_eq_extractLsb'_of_even h, BitVec.extractLsb'_append_extractLsb'_eq_extractLsb']

/-! ## The fields of a layout -/

@[simp] theorem fields_encodeR (op rd f3 rs1 rs2 f7) : let d := decode (encodeR op rd f3 rs1 rs2 f7)
    d.opcode = op ∧ d.rd = rd ∧ d.funct3 = f3 ∧ d.rs1 = rs1 ∧ d.rs2 = rs2 ∧ d.funct7 = f7 :=
  Instr.decodeR.inj (view_encodeR op rd f3 rs1 rs2 f7)

@[simp] theorem fields_encodeI (op rd f3 rs1 imm) : let d := decode (encodeI op rd f3 rs1 imm)
    d.opcode = op ∧ d.rd = rd ∧ d.funct3 = f3 ∧ d.rs1 = rs1 ∧ immIOf d = imm :=
  Instr.decodeI.inj (view_encodeI op rd f3 rs1 imm)

@[simp] theorem fields_encodeS (op f3 rs1 rs2 imm) : let d := decode (encodeS op f3 rs1 rs2 imm)
    d.opcode = op ∧ d.funct3 = f3 ∧ d.rs1 = rs1 ∧ d.rs2 = rs2 ∧ immSOf d = imm :=
  Instr.decodeS.inj (view_encodeS op f3 rs1 rs2 imm)

theorem fields_encodeB (op f3 rs1 rs2 imm) (h : imm.getLsbD 0 = false) :
    let d := decode (encodeB op f3 rs1 rs2 imm)
    d.opcode = op ∧ d.funct3 = f3 ∧ d.rs1 = rs1 ∧ d.rs2 = rs2 ∧ immBOf d = imm :=
  Instr.decodeB.inj (view_encodeB op f3 rs1 rs2 imm h)

@[simp] theorem fields_encodeU (op rd imm) : let d := decode (encodeU op rd imm)
    d.opcode = op ∧ d.rd = rd ∧ immUOf d = imm :=
  Instr.decodeU.inj (view_encodeU op rd imm)

theorem fields_encodeJ (op rd imm) (h : imm.getLsbD 0 = false) : let d := decode (encodeJ op rd imm)
    d.opcode = op ∧ d.rd = rd ∧ immJOf d = imm :=
  Instr.decodeJ.inj (view_encodeJ op rd imm h)

/-- Settles O16: every view holds its word, and each layout is read back by its own view. -/
theorem everyWordHasAllSixViews : Obligations.EveryWordHasAllSixViews :=
  ⟨fun f w => ⟨wellFormed_view f w, encode_view f w⟩, view_encodeR, view_encodeI, view_encodeS, view_encodeB,
    view_encodeU, view_encodeJ⟩

end Sys2Proof
end

section
/-! The tag (log entry 5): it names a row of R103 or a view, and drops no bit of the word (spec/30_encoding.md R41 to
R53, spec/45_rv32i_opcode_classes.md R102, R103). -/

namespace Sys2Proof

/-! ## The tag and the format by opcode (R102) -/

/-- The opcode is one of the eleven that have a format, or has none. -/
theorem opcode_cases (op : BitVec 7) : op = 0x37#7 ∨ op = 0x17#7 ∨ op = 0x6F#7 ∨ op = 0x67#7 ∨ op = 0x63#7 ∨
    op = 0x03#7 ∨ op = 0x23#7 ∨ op = 0x13#7 ∨ op = 0x33#7 ∨ op = 0x0F#7 ∨ op = 0x73#7 ∨
    formatOf op = none := by
  revert op; decide

section
variable {d : DecodedInstruction}

theorem tag_of_lui (h : d.opcode = 0x37#7) : tag d = .lui d.rd (immUOf d) := by simp [tag, h]
theorem tag_of_auipc (h : d.opcode = 0x17#7) : tag d = .auipc d.rd (immUOf d) := by simp [tag, h]
theorem tag_of_jal (h : d.opcode = 0x6F#7) : tag d = .jal d.rd (immJOf d) := by simp [tag, h]
theorem tag_of_jalr (h : d.opcode = 0x67#7) :
    tag d = if d.funct3 = 0 then .jalr d.rd d.rs1 (immIOf d) else view .I d := by simp [tag, h]
theorem tag_of_branch (h : d.opcode = 0x63#7) : tag d = tagBranch d := by simp [tag, h]
theorem tag_of_load (h : d.opcode = 0x03#7) : tag d = tagLoad d := by simp [tag, h]
theorem tag_of_store (h : d.opcode = 0x23#7) : tag d = tagStore d := by simp [tag, h]
theorem tag_of_opImm (h : d.opcode = 0x13#7) : tag d = tagOpImm d := by simp [tag, h]
theorem tag_of_op (h : d.opcode = 0x33#7) : tag d = tagOp d := by simp [tag, h]
theorem tag_of_fence (h : d.opcode = 0x0F#7) :
    tag d = if d.funct3 = 0 then .fence d.rd d.rs1 (immIOf d) else view .I d := by simp [tag, h]
theorem tag_of_system (h : d.opcode = 0x73#7) : tag d = tagSystem d := by simp [tag, h]
theorem tag_of_no_format (h : formatOf d.opcode = none) : tag d = view .R d := by
  simp only [formatOf, ite_eq_right_iff, reduceCtorEq, imp_false, ite_eq_iff, and_false, false_or] at h
  simp [tag, h]

end

/-! ## A tag holds the bits of a view -/

/-- The two instructions stand for the same word, and the one is well-formed when the other is. -/
def SameWord (i j : Instr) : Prop := encode i = encode j ∧ i.wellFormed = j.wellFormed

theorem SameWord.refl (i : Instr) : SameWord i i := ⟨rfl, rfl⟩

/-- The last of the eight `funct3` values. -/
theorem eq_seven_of_ne : ∀ f3 : BitVec 3,
    ¬ (f3 = 0 ∨ f3 = 1 ∨ f3 = 2 ∨ f3 = 3 ∨ f3 = 4 ∨ f3 = 5 ∨ f3 = 6) → f3 = 7#3 := by
  decide

section
variable {d : DecodedInstruction}

theorem tagBranch_sameWord (hop : d.opcode = 0x63#7) : SameWord (tagBranch d) (view .B d) := by
  unfold tagBranch
  split_ifs <;> simp [SameWord, view, encode, Instr.wellFormed, *]

theorem tagLoad_sameWord (hop : d.opcode = 0x03#7) : SameWord (tagLoad d) (view .I d) := by
  unfold tagLoad
  split_ifs <;> simp [SameWord, view, encode, Instr.wellFormed, *]

theorem tagStore_sameWord (hop : d.opcode = 0x23#7) : SameWord (tagStore d) (view .S d) := by
  unfold tagStore
  split_ifs <;> simp [SameWord, view, encode, Instr.wellFormed, *]

/-- The shifts are held by the R view, whose `rs2` is the shift amount (R128); the others by the I view. -/
theorem tagOpImm_sameWord (hop : d.opcode = 0x13#7) :
    SameWord (tagOpImm d) (view .I d) ∨ SameWord (tagOpImm d) (view .R d) := by
  unfold tagOpImm
  split_ifs <;> simp [SameWord, view, encode, Instr.wellFormed, *]

theorem tagOp_sameWord (hop : d.opcode = 0x33#7) : SameWord (tagOp d) (view .R d) := by
  unfold tagOp
  split_ifs <;> simp [SameWord, view, encode, Instr.wellFormed, *]
  rw [eq_seven_of_ne d.funct3 (by simp only [*, or_self, not_false_iff])]

theorem tagSystem_sameWord (hop : d.opcode = 0x73#7) : SameWord (tagSystem d) (view .I d) := by
  unfold tagSystem
  split_ifs <;> simp [SameWord, view, encode, Instr.wellFormed, *] <;> rfl

end

/-- The tag renames a view: it moves, drops and adds no bit. -/
theorem tag_sameWord (d : DecodedInstruction) : ∃ f, SameWord (tag d) (view f d) := by
  rcases opcode_cases d.opcode with h | h | h | h | h | h | h | h | h | h | h | h
  · exact ⟨.U, by simp [tag_of_lui h, SameWord, view, encode, Instr.wellFormed, h]⟩
  · exact ⟨.U, by simp [tag_of_auipc h, SameWord, view, encode, Instr.wellFormed, h]⟩
  · exact ⟨.J, by simp [tag_of_jal h, SameWord, view, encode, Instr.wellFormed, h]⟩
  · refine ⟨.I, ?_⟩
    rw [tag_of_jalr h]
    split_ifs with hf3
    · simp [SameWord, view, encode, Instr.wellFormed, h, hf3]
    · exact .refl _
  · exact ⟨.B, tag_of_branch h ▸ tagBranch_sameWord h⟩
  · exact ⟨.I, tag_of_load h ▸ tagLoad_sameWord h⟩
  · exact ⟨.S, tag_of_store h ▸ tagStore_sameWord h⟩
  · rw [tag_of_opImm h]
    exact (tagOpImm_sameWord h).elim (⟨.I, ·⟩) (⟨.R, ·⟩)
  · exact ⟨.R, tag_of_op h ▸ tagOp_sameWord h⟩
  · refine ⟨.I, ?_⟩
    rw [tag_of_fence h]
    split_ifs with hf3
    · simp [SameWord, view, encode, Instr.wellFormed, h, hf3]
    · exact .refl _
  · exact ⟨.I, tag_of_system h ▸ tagSystem_sameWord h⟩
  · exact ⟨.R, tag_of_no_format h ▸ .refl _⟩

/-! ## The rows by their fields -/

/-- R103 has a row with this mask and this match. -/
abbrev HasRow (mask value : Word) : Prop := ∃ r ∈ opcodeRows, r.mask = mask ∧ r.value = value

theorem isRowWord_of_hasRow {w mask value : Word} (hrow : HasRow mask value) (hw : w &&& mask = value) :
    isRowWord w = true := by
  obtain ⟨r, hr, rfl, rfl⟩ := hrow
  exact List.any_eq_true.mpr ⟨r, hr, decide_eq_true hw⟩

/-- Masking a word by whole fields masks each of its fields. -/
theorem and_encodeR (w : Word) (op f3 f7) : w &&& encodeR op 0#5 f3 0#5 0#5 f7
    = encodeR ((decode w).opcode &&& op) 0#5 ((decode w).funct3 &&& f3) 0#5 0#5 ((decode w).funct7 &&& f7) := by
  conv_lhs => rw [← encode_view .R w]
  unfold view encode encodeR
  iterate 5 rw [BitVec.and_append]
  simp only [BitVec.and_zero]

section
variable {w : Word} (h : isRowWord w = false)
include h

/-- The mask and the match of a row, taken apart into fields: a word no row selects has other fields. -/
theorem masked_fields_ne_of_no_row {mop mf3 mf7 op f3 f7}
    (hrow : HasRow (encodeR mop 0#5 mf3 0#5 0#5 mf7) (encodeR op 0#5 f3 0#5 0#5 f7)) :
    ¬ ((decode w).opcode &&& mop = op ∧ (decode w).funct3 &&& mf3 = f3 ∧ (decode w).funct7 &&& mf7 = f7) := by
  rintro ⟨rfl, rfl, rfl⟩
  have hw : isRowWord w = true := isRowWord_of_hasRow hrow (and_encodeR w mop mf3 mf7)
  exact Bool.false_ne_true (h.symm.trans hw)

theorem opcode_ne_of_no_row {op} (hrow : HasRow 0x0000007F#32 (encodeR op 0#5 0#3 0#5 0#5 0#7)) :
    (decode w).opcode ≠ op := by
  intro hop
  exact masked_fields_ne_of_no_row h (mop := .allOnes 7) (mf3 := 0#3) (mf7 := 0#7) hrow (by
    simp only [hop, BitVec.and_allOnes, BitVec.and_zero, and_self])

theorem funct3_ne_of_no_row {op f3} (hop : (decode w).opcode = op)
    (hrow : HasRow 0x0000707F#32 (encodeR op 0#5 f3 0#5 0#5 0#7)) : (decode w).funct3 ≠ f3 := by
  intro hf3
  exact masked_fields_ne_of_no_row h (mop := .allOnes 7) (mf3 := .allOnes 3) (mf7 := 0#7) hrow (by
    simp only [hop, hf3, BitVec.and_allOnes, BitVec.and_zero, and_self])

theorem funct3_funct7_ne_of_no_row {op f3 f7} (hop : (decode w).opcode = op)
    (hrow : HasRow 0xFE00707F#32 (encodeR op 0#5 f3 0#5 0#5 f7)) :
    ¬ ((decode w).funct3 = f3 ∧ (decode w).funct7 = f7) := by
  rintro ⟨hf3, hf7⟩
  exact masked_fields_ne_of_no_row h (mop := .allOnes 7) (mf3 := .allOnes 3) (mf7 := .allOnes 7) hrow (by
    simp only [hop, hf3, hf7, BitVec.and_allOnes, and_self])

theorem tagBranch_of_no_row (hop : (decode w).opcode = 0x63#7) : tagBranch (decode w) = view .B (decode w) := by
  have hne (f3) (hrow) : (decode w).funct3 ≠ f3 := funct3_ne_of_no_row h hop hrow
  simp only [tagBranch, if_neg (hne 0 (by decide)), if_neg (hne 1 (by decide)), if_neg (hne 4 (by decide)),
    if_neg (hne 5 (by decide)), if_neg (hne 6 (by decide)), if_neg (hne 7 (by decide))]

theorem tagLoad_of_no_row (hop : (decode w).opcode = 0x03#7) : tagLoad (decode w) = view .I (decode w) := by
  have hne (f3) (hrow) : (decode w).funct3 ≠ f3 := funct3_ne_of_no_row h hop hrow
  simp only [tagLoad, if_neg (hne 0 (by decide)), if_neg (hne 1 (by decide)), if_neg (hne 2 (by decide)),
    if_neg (hne 4 (by decide)), if_neg (hne 5 (by decide))]

theorem tagStore_of_no_row (hop : (decode w).opcode = 0x23#7) : tagStore (decode w) = view .S (decode w) := by
  have hne (f3) (hrow) : (decode w).funct3 ≠ f3 := funct3_ne_of_no_row h hop hrow
  simp only [tagStore, if_neg (hne 0 (by decide)), if_neg (hne 1 (by decide)), if_neg (hne 2 (by decide))]

theorem tagOpImm_of_no_row (hop : (decode w).opcode = 0x13#7) : tagOpImm (decode w) = view .I (decode w) := by
  have hne (f3) (hrow) : (decode w).funct3 ≠ f3 := funct3_ne_of_no_row h hop hrow
  have hshift (f3 f7) (hrow) : ¬ ((decode w).funct3 = f3 ∧ (decode w).funct7 = f7) :=
    funct3_funct7_ne_of_no_row h hop hrow
  simp only [tagOpImm, if_neg (hne 0 (by decide)), if_neg (hne 2 (by decide)), if_neg (hne 3 (by decide)),
    if_neg (hne 4 (by decide)), if_neg (hne 6 (by decide)), if_neg (hne 7 (by decide)),
    if_neg (hshift 1 0x00#7 (by decide)), if_neg (hshift 5 0x00#7 (by decide)), if_neg (hshift 5 0x20#7 (by decide))]

/-- With `funct7` zero every `funct3` is a row's, and with `0x20` two are. -/
theorem tagOp_of_no_row (hop : (decode w).opcode = 0x33#7) : tagOp (decode w) = view .R (decode w) := by
  have hne (f3 f7) (hrow) : ¬ ((decode w).funct3 = f3 ∧ (decode w).funct7 = f7) :=
    funct3_funct7_ne_of_no_row h hop hrow
  have hrows : ∀ f3, HasRow 0xFE00707F#32 (encodeR 0x33#7 0#5 f3 0#5 0#5 0x00#7) := by decide
  have hzero : (decode w).funct7 ≠ 0x00#7 := fun hf7 => hne _ _ (hrows _) ⟨rfl, hf7⟩
  unfold tagOp
  rw [if_neg hzero]
  split_ifs with hf7 hsub hsra
  · exact absurd ⟨hsub, hf7⟩ (hne 0 0x20#7 (by decide))
  · exact absurd ⟨hsra, hf7⟩ (hne 5 0x20#7 (by decide))
  · rfl
  · rfl

/-- ECALL and EBREAK are whole words (R142, R143). -/
theorem tagSystem_of_no_row (hop : (decode w).opcode = 0x73#7) : tagSystem (decode w) = view .I (decode w) := by
  have hne (imm : BitVec 12) (hrow : HasRow 0xFFFFFFFF#32 (encodeI 0x73#7 0#5 0#3 0#5 imm)) :
      ¬ ((decode w).funct3 = 0 ∧ (decode w).rd = 0 ∧ (decode w).rs1 = 0 ∧ immIOf (decode w) = imm) := by
    rintro ⟨hf3, hrd, hrs1, himm⟩
    have hw : w = encodeI 0x73#7 0#5 0#3 0#5 imm := by
      rw [← encode_view .I w, view, encode, hop, hf3, hrd, hrs1, himm]
      rfl
    have hrow' : isRowWord w = true := isRowWord_of_hasRow hrow (by rw [hw]; exact BitVec.and_allOnes)
    exact Bool.false_ne_true (h.symm.trans hrow')
  simp only [tagSystem, if_neg (hne 0x000#12 (by decide)), if_neg (hne 0x001#12 (by decide))]

/-- A word no row selects is tagged with the view of its opcode's format, or R (R102). -/
theorem decodeWord_of_no_row : decodeWord w = view ((formatOf (decode w).opcode).getD .R) (decode w) := by
  have hne (op) (hrow) : (decode w).opcode ≠ op := opcode_ne_of_no_row h hrow
  unfold decodeWord
  rcases opcode_cases (decode w).opcode with hop | hop | hop | hop | hop | hop | hop | hop | hop | hop | hop | hop
  · exact absurd hop (hne _ (by decide))
  · exact absurd hop (hne _ (by decide))
  · exact absurd hop (hne _ (by decide))
  · rw [tag_of_jalr hop, if_neg (funct3_ne_of_no_row h hop (by decide)), hop]; rfl
  · rw [tag_of_branch hop, tagBranch_of_no_row h hop, hop]; rfl
  · rw [tag_of_load hop, tagLoad_of_no_row h hop, hop]; rfl
  · rw [tag_of_store hop, tagStore_of_no_row h hop, hop]; rfl
  · rw [tag_of_opImm hop, tagOpImm_of_no_row h hop, hop]; rfl
  · rw [tag_of_op hop, tagOp_of_no_row h hop, hop]; rfl
  · rw [tag_of_fence hop, if_neg (funct3_ne_of_no_row h hop (by decide)), hop]; rfl
  · rw [tag_of_system hop, tagSystem_of_no_row h hop, hop]; rfl
  · rw [tag_of_no_format hop, hop]; rfl

end

end Sys2Proof
end

section
/-! Decode and encode agree, and no encoding is illegal (spec/30_encoding.md R41 to R53). -/

namespace Sys2Proof

/-! ## The canonical views -/

/-- A view that is its own word's view, of a word no row selects, in the format of its opcode, is what its word is
tagged with. -/
theorem decodeWord_encode_of_view {i : Instr} {f : Format} {op : BitVec 7} (hview : view f (decode (encode i)) = i)
    (hop : (decode (encode i)).opcode = op)
    (hcanonical : (!isRowWord (encode i) && (formatOf op).getD .R == f) = true) :
    decodeWord (encode i) = i := by
  simp only [Bool.and_eq_true, Bool.not_eq_true', beq_iff_eq] at hcanonical
  obtain ⟨hno, hf⟩ := hcanonical
  rw [decodeWord_of_no_row hno, hop, hf, hview]

theorem immB_even {imm : BitVec 13} (h : immBWellFormed imm = true) : imm.getLsbD 0 = false := by
  simpa only [immBWellFormed, Bool.not_eq_true'] using h

theorem immJ_even {imm : BitVec 21} (h : immJWellFormed imm = true) : imm.getLsbD 0 = false := by
  simpa only [immJWellFormed, Bool.not_eq_true'] using h

/-! ## The statements -/

/-- Settles O15: the tag of a word renames one of its views, and every view holds the word. -/
theorem encodeOfDecodeIsTheWord : Obligations.EncodeOfDecodeIsTheWord := by
  intro w
  obtain ⟨f, hencode, hwellFormed⟩ := tag_sameWord (decode w)
  exact ⟨hwellFormed.trans (wellFormed_view f w), hencode.trans (encode_view f w)⟩

/-- Settles O14: the decoder reads a row's word back field by field, and the row's opcode, `funct3` and `funct7` select
its tag; a view is what remains when no row does. -/
theorem decodeOfEncodeIsTheInstruction : Obligations.DecodeOfEncodeIsTheInstruction := by
  intro i hwf hcanonical
  cases i with
  | decodeR op rd f3 rs1 rs2 f7 =>
    exact decodeWord_encode_of_view (view_encodeR op rd f3 rs1 rs2 f7) (opcode_encodeR ..) hcanonical
  | decodeI op rd f3 rs1 imm =>
    exact decodeWord_encode_of_view (view_encodeI op rd f3 rs1 imm) (opcode_encodeI ..) hcanonical
  | decodeS op f3 rs1 rs2 imm =>
    exact decodeWord_encode_of_view (view_encodeS op f3 rs1 rs2 imm) (opcode_encodeS ..) hcanonical
  | decodeB op f3 rs1 rs2 imm =>
    exact decodeWord_encode_of_view (view_encodeB op f3 rs1 rs2 imm (immB_even hwf)) (opcode_encodeB ..) hcanonical
  | decodeU op rd imm => exact decodeWord_encode_of_view (view_encodeU op rd imm) (opcode_encodeU ..) hcanonical
  | decodeJ op rd imm =>
    exact decodeWord_encode_of_view (view_encodeJ op rd imm (immJ_even hwf)) (opcode_encodeJ ..) hcanonical
  | lui | auipc => simp [decodeWord, encode, tag_of_lui, tag_of_auipc]
  | jal rd imm => simp [decodeWord, encode, tag_of_jal, fields_encodeJ 0x6F#7 rd imm (immJ_even hwf)]
  | jalr | fence => simp [decodeWord, encode, tag_of_jalr, tag_of_fence]
  | beq rs1 rs2 imm | bne rs1 rs2 imm | blt rs1 rs2 imm | bge rs1 rs2 imm | bltu rs1 rs2 imm | bgeu rs1 rs2 imm =>
    have hfields (f3) := fields_encodeB 0x63#7 f3 rs1 rs2 imm (immB_even hwf)
    simp [decodeWord, encode, tag_of_branch, tagBranch, hfields]
  | lb | lh | lw | lbu | lhu => simp [decodeWord, encode, tag_of_load, tagLoad]
  | sb | sh | sw => simp [decodeWord, encode, tag_of_store, tagStore]
  | addi | slti | sltiu | xori | ori | andi | slli | srli | srai =>
    simp [decodeWord, encode, tag_of_opImm, tagOpImm]
  | add | sub | sll | slt | sltu | xor | srl | sra | or | and => simp [decodeWord, encode, tag_of_op, tagOp]
  | ecall | ebreak => decide

end Sys2Proof

namespace Sys2Proof.Machine

theorem canStep_of_fetchWord {s : State} {w : Word} (h : fetchWord s = .ok w) : CanStep s := by
  rw [fetchWord_eq] at h
  cases hs : s.status with
  | fatal f => simp [hs] at h
  | running =>
    simp only [hs] at h
    split at h
    · exact ⟨hs, ‹_›⟩
    · cases h

theorem step_of_canStep {s : State} (h : CanStep s) : step s = .next (advanced s) := by
  obtain ⟨hs, hb⟩ := h
  simp only [step_eq, hs, if_pos hb]

/-- Settles O13: decoding is total, reads the opcode into one output only, and a step looks at no field. -/
theorem noEncodingIsIllegal : Obligations.NoEncodingIsIllegal := by
  refine ⟨fun _ _ _ _ _ => ⟨_, rfl⟩, fun w s hs => perform_running hs (.decode w), fun _ _ => decode_of_upper_eq,
    fun w s hfetch => ?_⟩
  have hcan := canStep_of_fetchWord hfetch
  exact ⟨advanced s, step_of_canStep hcan, steppedOver_advanced (pcAdvances_of_inBounds hcan.2)⟩

end Sys2Proof.Machine
end

section
/-! The codec on its domain and outside it (spec/40_bitfield_codec.md R60 to R63): the formulas bit by bit, and the
operations with their refusals. -/

namespace Sys2Proof.Codec

/-! ## bitrange -/

/-- A slice that reaches the word's top bit is the shift alone: its mask covers every bit that is left. -/
theorem bitrange_of_top (w : Word) {hi lo : Nat} (h : 31 ≤ hi) : bitrange w hi lo = w >>> lo := by
  apply BitVec.eq_of_getLsbD_eq
  intro i hi'
  simp only [bitrange, BitVec.getLsbD_and, BitVec.getLsbD_ushiftRight, BitVec.getLsbD_ofNat,
    Nat.testBit_two_pow_sub_one]
  by_cases hc : i < hi - lo + 1
  · simp [hi', hc]
  · simp [BitVec.getLsbD_of_ge w (lo + i) (by omega)]

theorem bitrange_toNat_lt (w : Word) {hi lo : Nat} (h : lo ≤ hi) (h' : hi < 32) :
    (bitrange w hi lo).toNat < 2 ^ (hi - lo + 1) := by
  rw [bitrange_eq_setWidth w _ h h' rfl, BitVec.toNat_setWidth]
  exact (Nat.mod_le _ _).trans_lt (BitVec.isLt _)

/-! ## sign_ext -/

/-- Every bit of `signExt` on any value: from the width up the sign bit is added to the value's own bit, which is not
masked (R63). -/
theorem signExt_getLsbD_unmasked (v : Word) {width i : Nat} (hi : i < 32) :
    (signExt v width).getLsbD i = (v.getLsbD i || (decide (width ≤ i) && v.getLsbD (width - 1))) := by
  unfold signExt
  split
  next hsign =>
    rw [BitVec.getLsbD_or, BitVec.getLsbD_shiftLeft, BitVec.getLsbD_allOnes, hsign]
    by_cases hc : i < width
    · simp [hc]
    · simp [hi, hc, show width ≤ i by omega, show i - width < 32 by omega]
  next hsign => simp [Bool.eq_false_of_not_eq_true hsign]

/-- On a value that fits its width `signExt` is the usual sign extension. -/
theorem signExt_of_fits {v : Word} {width : Nat} (h1 : 1 ≤ width) (h2 : width ≤ 32) (fits : v.toNat < 2 ^ width) :
    signExt v width = (v.setWidth width).signExtend 32 := by
  have hpadded : v = (v.setWidth width).setWidth 32 := by
    apply BitVec.eq_of_toNat_eq
    rw [BitVec.toNat_setWidth, BitVec.toNat_setWidth, Nat.mod_eq_of_lt fits, Nat.mod_eq_of_lt v.isLt]
  exact signExt_of_eq_setWidth hpadded h1 h2

theorem signExt_full_width (v : Word) : signExt v 32 = v :=
  (signExt_of_eq_setWidth (BitVec.setWidth_eq v).symm (by omega) (by omega)).trans (BitVec.signExtend_eq v)

end Sys2Proof.Codec

namespace Sys2Proof.Machine

open Codec

/-! ## The operations with their domain -/

theorem bitrangeOp_of_domain (w : Word) {hi lo : Nat} (h : lo ≤ hi) (h' : hi < 32) :
    bitrangeOp w hi lo = .ok (bitrange w hi lo) := if_pos ⟨h, h'⟩

theorem bitrangeOp_outside_domain (w : Word) {hi lo : Nat} (h : ¬ (lo ≤ hi ∧ hi < 32)) :
    bitrangeOp w hi lo = .refused (.bitrangeDomain hi lo) := if_neg h

theorem signExtOp_of_domain (v : Word) {width : Nat} (h1 : 1 ≤ width) (h2 : width ≤ 32) :
    signExtOp v width = .ok (signExt v width) := if_pos ⟨h1, h2⟩

theorem signExtOp_outside_domain (v : Word) {width : Nat} (h : ¬ (1 ≤ width ∧ width ≤ 32)) :
    signExtOp v width = .refused (.signExtDomain width) := if_neg h

theorem perform_bitrange {s : State} (hs : s.status = .running) {w v : Word} {hi lo : Nat}
    (h : bitrangeOp w hi lo = .ok v) : perform (.bitrange w hi lo) s = .ok (.word v) s := by
  rw [perform_running hs, opEffect, h]
  rfl

theorem perform_signExt {s : State} (hs : s.status = .running) {v r : Word} {width : Nat}
    (h : signExtOp v width = .ok r) : perform (.signExt v width) s = .ok (.word r) s := by
  rw [perform_running hs, opEffect, h]
  rfl

/-! ## The statements -/

/-- Settles O2: the slice bit by bit and its range, and at full width the shift by 0. -/
theorem bitrangeIsTheUnsignedSlice : Obligations.BitrangeIsTheUnsignedSlice := by
  refine ⟨fun w hi lo h h' => ?_, fun w => ?_, by decide⟩
  · have hop := bitrangeOp_of_domain w h h'
    exact ⟨hop, bitrange_getLsbD w h h', bitrange_toNat_lt w h h', fun s hs => perform_bitrange hs hop⟩
  · rw [bitrangeOp_of_domain w (by omega) (by omega), bitrange_of_top w le_rfl, BitVec.ushiftRight_zero]

/-- Settles O3: the sign bit is added from the width up, which on a value that fits is the usual sign extension. -/
theorem signExtFillsHigherBits : Obligations.SignExtFillsHigherBits := by
  refine ⟨fun v width h1 h2 => ?_, fun v => ?_, by decide⟩
  · have hop := signExtOp_of_domain v h1 h2
    exact ⟨hop, fun i => signExt_getLsbD_unmasked v, signExt_of_fits h1 h2, fun s hs => perform_signExt hs hop⟩
  · rw [signExtOp_of_domain v (by omega) le_rfl, signExt_full_width]

/-- Settles O4: each way out of a domain negates its guard; the bounds `(32, 25)` and `(31, 25)` both reach the top
bit, so both are the shift by 25. -/
theorem codecIsRefusedOutsideItsDomain : Obligations.CodecIsRefusedOutsideItsDomain := by
  refine ⟨fun w hi lo h => bitrangeOp_outside_domain w (by omega),
    fun v width h => signExtOp_outside_domain v (by omega), fun w => ?_⟩
  calc bitrange w 32 25 = w >>> 25 := bitrange_of_top w (by omega)
    _ = bitrange w 31 25 := (bitrange_of_top w le_rfl).symm

end Sys2Proof.Machine
end

section
/-! The decoder family (spec/41_decoder.md): the source fields and the five immediates of every word, with their
corner cases (R66, R69 to R75), and the decoder that selects nothing: a step through the instruction tag is the step
without it, and no instruction's effect differs from another's (R77, R94, R96). -/

namespace Sys2Proof

open Codec

/-! ## The fields -/

/-- A record field that is the slice of the word is the slice's `bitrange`, and is in the range of its width. -/
theorem field_eq_bitrange_and_le {n : Nat} {x : BitVec n} {w : Word} {hi lo : Nat} (hx : x = w.extractLsb' lo n)
    (h : lo ≤ hi) (h' : hi < 32) (hn : n = hi - lo + 1) :
    x.setWidth 32 = bitrange w hi lo ∧ x = w.extractLsb' lo n ∧ x.toNat ≤ 2 ^ n - 1 :=
  ⟨by rw [hx, bitrange_eq_setWidth w n h h' hn], hx, Nat.le_sub_one_of_lt x.isLt⟩

/-! ## Bits of the immediates -/

/-- A slice of one bit is the bit. -/
theorem extractLsb'_one_eq_ofBool {m : Nat} (x : BitVec m) (i : Nat) :
    x.extractLsb' i 1 = BitVec.ofBool (x.getLsbD i) := by
  apply BitVec.eq_of_getLsbD_eq
  intro j hj
  obtain rfl : j = 0 := by omega
  simp

/-- A sign extension of a field over a zero bit is even. -/
theorem bit0_signExtend_append_zero {m v : Nat} (x : BitVec m) (h : m + 1 ≤ v) :
    ((x ++ 0#1).signExtend v).getLsbD 0 = false := by
  rw [getLsbD_signExtend_of_lt _ (by omega) h, BitVec.getLsbD_append]
  simp

theorem bit0_immB (w : Word) : (decode w).immB.getLsbD 0 = false := by
  rw [decode_immB]
  exact bit0_signExtend_append_zero _ (by omega)

theorem bit0_immJ (w : Word) : (decode w).immJ.getLsbD 0 = false := by
  rw [decode_immJ]
  exact bit0_signExtend_append_zero _ (by omega)

/-- The low bits of a word masked off are its upper slice over zeros. -/
theorem extractLsb'_append_zero_eq_and (w : Word) : w.extractLsb' 12 20 ++ 0#12 = w &&& 0xFFFFF000#32 := by
  calc w.extractLsb' 12 20 ++ 0#12
      = (w &&& 0xFFFFF000#32).extractLsb' 12 20 ++ (w &&& 0xFFFFF000#32).extractLsb' 0 12 := by
        rw [BitVec.extractLsb'_and, BitVec.extractLsb'_and,
          show (0xFFFFF000#32).extractLsb' 12 20 = BitVec.allOnes 20 by decide,
          show (0xFFFFF000#32).extractLsb' 0 12 = 0#12 by decide, BitVec.and_allOnes, BitVec.and_zero]
    _ = w &&& 0xFFFFF000#32 :=
        (BitVec.extractLsb'_append_extractLsb'_eq_extractLsb' rfl).trans BitVec.extractLsb'_eq_self

theorem decode_immU_eq_and (w : Word) : (decode w).immU = w &&& 0xFFFFF000#32 :=
  (decode_immU w).trans (extractLsb'_append_zero_eq_and w)

/-! ## The fields and immediates: the statements -/

/-- Settles O5: each of the three fields is its slice of the word. -/
theorem funct3AndSourceFieldsAreWordSlices : Obligations.Funct3AndSourceFieldsAreWordSlices :=
  ⟨fun w => ⟨field_eq_bitrange_and_le (decode_funct3 w) (by omega) (by omega) rfl,
    field_eq_bitrange_and_le (decode_rs1 w) (by omega) (by omega) rfl,
    field_eq_bitrange_and_le (decode_rs2 w) (by omega) (by omega) rfl⟩, by decide⟩

/-- Settles O7: a corner case is the sign extension of its 12 bits. -/
theorem iTypeImmediate : Obligations.ITypeImmediate := by
  refine ⟨fun w => ⟨rfl, decode_immI w, fun h => ?_, fun h => ?_, fun h => ?_⟩, by decide⟩ <;>
    rw [decode_immI, h] <;> decide

/-- Settles O8: a corner case is the sign extension of its two slices joined. -/
theorem sTypeImmediate : Obligations.STypeImmediate := by
  refine ⟨fun w => ⟨rfl, decode_immS w, fun hhigh hlow => ?_, fun hhigh hlow => ?_⟩, by decide⟩ <;>
    rw [decode_immS, immSBits, hhigh, hlow] <;> decide

/-- Settles O9: the largest offset has every bit of its source set but the sign and bit 0. -/
theorem bTypeImmediate : Obligations.BTypeImmediate := by
  refine ⟨fun w => ⟨rfl, decode_immB w, bit0_immB w, fun hhigh hlow h7 h31 => ?_⟩, by decide⟩
  rw [decode_immB, immBBits, extractLsb'_one_eq_ofBool, extractLsb'_one_eq_ofBool, h31, h7, hhigh, hlow]
  decide

/-- Settles O10: the upper 20 bits over zeros, which is the mask. -/
theorem uTypeImmediate : Obligations.UTypeImmediate := by
  refine ⟨fun w => ⟨rfl, decode_immU_eq_and w, decode_immU w, fun h => ?_, fun h => ?_, fun h => ?_⟩, by decide⟩ <;>
    rw [decode_immU, h] <;> decide

/-- Settles O11: the largest offset has word bits 30:12, and so every slice of them, all ones. -/
theorem jTypeImmediate : Obligations.JTypeImmediate := by
  refine ⟨fun w => ⟨rfl, decode_immJ w, bit0_immJ w, slice_immJ_high w, fun hones h31 => ?_⟩, by decide⟩
  have hslice (start len : Nat) (hle : start + len ≤ 19) :
      w.extractLsb' (12 + start) len = (0x7FFFF#19).extractLsb' start len := by
    rw [← hones, extractLsb'_extractLsb' w hle]
  rw [decode_immJ, immJBits, extractLsb'_one_eq_ofBool w 31, h31, hslice 0 8 (by omega), hslice 8 1 (by omega),
    hslice 9 10 (by omega)]
  decide

end Sys2Proof

namespace Sys2Proof.Machine

/-! ## No dispatch -/

/-- The instruction a word is tagged with holds the word (R41). -/
@[simp] theorem encode_decodeWord (w : Word) : encode (decodeWord w) = w := (encodeOfDecodeIsTheWord w).2

/-- The event of a word's instruction is the word's (R97). -/
theorem eventOf_decodeWord (w : Word) (s : State) : eventOf (decodeWord w) s = logEvent w s := by
  rw [eventOf, encode_decodeWord]

/-- The meaning of a word's instruction is lines 3 to 6 of `step` for the word (R94, R96). -/
theorem exec_decodeWord (w : Word) (s : State) : exec (decodeWord w) s = toOutcome (retire w s) := by
  rw [exec_eq_stepOver, stepOver, encode_decodeWord]

/-- The step through the tag is R94's, which has none: after any fetch both go on alike. -/
theorem step_eq_toOutcome_stepWithEvent (s : State) : step s = toOutcome (stepWithEvent s) := by
  unfold step stepWithEvent
  cases fetchWord s with
  | ok w => exact exec_decodeWord w s
  | fault why => rfl
  | refused why => rfl

/-- R94's step for a fetched word completes: four bytes in bounds leave room for the advance (R86). -/
theorem stepWithEvent_of_fetchWord {s : State} {w : Word} (h : fetchWord s = .ok w) :
    stepWithEvent s = .ok (advanced s, logEvent w s) := by
  obtain ⟨-, hbounds⟩ := canStep_of_fetchWord h
  rw [stepWithEvent, h, Result.bind_ok, retire_eq, if_pos (pcAdvances_of_inBounds hbounds)]

/-- The operation `step` answers the event of R94's step and leaves its state. -/
theorem perform_step_of_stepWithEvent {s t : State} {e : LogEvent} (hs : s.status = .running)
    (h : stepWithEvent s = .ok (t, e)) : perform .step s = .ok (.event e) t := by
  rw [perform_running hs, opEffect, h]
  rfl

/-- Settles O34: both steps run lines 3 to 6 for the fetched word, whose tag holds it. -/
theorem taggedStepIsTheUndispatchedStep : Obligations.TaggedStepIsTheUndispatchedStep := by
  refine fun s => ⟨step_eq_toOutcome_stepWithEvent s, fun w hfetch => ?_⟩
  have hcan := canStep_of_fetchWord hfetch
  have hevent := stepWithEvent_of_fetchWord hfetch
  have hexec : exec (decodeWord w) s = .next (advanced s) := by
    rw [← step_of_fetchWord hfetch, step_of_canStep hcan]
  rw [eventOf_decodeWord]
  obtain ⟨hrunning, -⟩ := hcan
  exact ⟨advanced s, hevent, hexec, perform_step_of_stepWithEvent hrunning hevent⟩

/-- Settles O38: every meaning is the one shared operation, and an event reads the word alone. -/
theorem theInstructionDoesNotMatter : Obligations.TheInstructionDoesNotMatter := by
  refine fun i j s => ⟨?_, fun hword => ?_⟩
  · rw [exec_eq_stepOver, exec_eq_stepOver, stepOver_eq, stepOver_eq]
  · rw [eventOf, eventOf, hword]

end Sys2Proof.Machine
end

section
/-! The register file's operations (spec/42_register_file_ops.md R80 to R86): what `get`, `set`, `program_counter()` and
`advance_pc_by(4)` answer on a running machine, and which slots they leave. -/

namespace Sys2Proof.Machine

/-! ## Slots -/

/-- An index below `NGPR` is a 5-bit register index. -/
theorem exists_register_of_lt {i : Nat} (h : i < 32) : ∃ k : BitVec 5, k.toNat = i := ⟨BitVec.ofNatLT i h, rfl⟩

theorem ne_zero_of_toNat_pos {k : BitVec 5} (h : 0 < k.toNat) : k ≠ 0#5 := by
  rintro rfl
  exact absurd h (by decide)

theorem getElem_writeX_same (r : RegFile) {k : BitVec 5} (hk : k ≠ 0#5) (v : Word) :
    (writeX r k v)[k.toNat]'(Nat.lt_succ_of_lt k.isLt) = v := by
  simp [writeX_of_ne_zero r hk]

theorem getElem_writeX_other (r : RegFile) (k : BitVec 5) (v : Word) {j : Nat} (hj : j < 33) (h : j ≠ k.toNat) :
    (writeX r k v)[j] = r[j] := by
  unfold writeX
  split
  · rfl
  · exact Vector.getElem_set_ne _ _ h.symm

/-- The later of two writes of a register stays (R82). -/
theorem writeX_writeX_same (r : RegFile) (k : BitVec 5) (v w : Word) : writeX (writeX r k v) k w = writeX r k w := by
  unfold writeX
  split
  · rfl
  · exact Vector.set_set ..

theorem getElem_setPc_of_lt (r : RegFile) (v : Word) {j : Nat} (hj : j < 32) : (setPc r v)[j] = r[j] :=
  Vector.getElem_set_ne _ _ (show (32 : Nat) ≠ j by omega)

/-! ## The operations on the register file -/

theorem getSlot_register (r : RegFile) (k : BitVec 5) : getSlot r k.toNat = .ok (readX r k) := by
  unfold getSlot
  rw [if_pos k.isLt, BitVec.ofNat_toNat, BitVec.setWidth_eq]

theorem getSlot_above (r : RegFile) {i : Nat} (h : 33 ≤ i) : getSlot r i = .refused (.noSuchSlot i) := by
  unfold getSlot
  rw [if_neg (show ¬ i < 32 by omega), if_neg (show ¬ i = 32 by omega)]

theorem setSlot_above (r : RegFile) {i : Nat} (h : 33 ≤ i) (v : Word) : setSlot r i v = .refused (.noSuchSlot i) := by
  unfold setSlot
  rw [if_neg (show ¬ i < 32 by omega), if_neg (show ¬ i = 32 by omega)]

/-! ## The host's operations on a running machine -/

section
variable {s : State} (hs : s.status = .running)
include hs

theorem perform_get (k : BitVec 5) : perform (.get k.toNat) s = .ok (.word (readX s.regs k)) s := by
  rw [perform_running hs, opEffect, getSlot_register]
  rfl

theorem perform_get_above {i : Nat} (h : 33 ≤ i) : perform (.get i) s = .refuse (.noSuchSlot i) := by
  rw [perform_running hs, opEffect, getSlot_above s.regs h]
  rfl

theorem perform_set_above {i : Nat} (h : 33 ≤ i) (v : Word) : perform (.set i v) s = .refuse (.noSuchSlot i) := by
  rw [perform_running hs, opEffect, setSlot_above s.regs h]
  rfl

theorem perform_programCounter : perform .programCounter s = .ok (.word (programCounter s.regs)) s :=
  perform_running hs .programCounter

/-- Slot 32 read through `get` is the PC (R81). -/
theorem perform_get_pc : perform (.get 32) s = .ok (.word (programCounter s.regs)) s :=
  perform_running hs (.get 32)

/-- Slot 32 written through `set` is the PC, with no check on the value (R83). -/
theorem perform_set_pc (v : Word) : perform (.set 32 v) s = .ok .none { s with regs := setPc s.regs v } :=
  perform_running hs (.set 32 v)

/-- `advance_pc_by(4)` leaves the state lines 3 to 6 of `step` leave, with no event (R85). -/
theorem perform_advancePc (h : PcAdvances s) : perform .advancePc s = .ok .none (advanced s) := by
  rw [perform_running hs, opEffect, advancePc_eq, if_pos h]
  rfl

theorem perform_advancePc_refused (h : ¬ PcAdvances s) : perform .advancePc s = .refuse .pcOverflow := by
  rw [perform_running hs, opEffect, advancePc_eq, if_neg h]
  rfl

/-- Two `set` calls at one register index leave the state the later one leaves (R82). -/
theorem performAll_set_set (k : BitVec 5) (v w : Word) :
    performAll [.set k.toNat v, .set k.toNat w] s = .ok [.none, .none] { s with regs := writeX s.regs k w } := by
  have hsecond := perform_set (s := { s with regs := writeX s.regs k v }) hs k w
  rw [writeX_writeX_same] at hsecond
  exact performAll_cons_ok (perform_set hs k v) (performAll_cons_ok hsecond rfl)

/-- A register written and then read answers the value, and 0 for register zero (R80, R82). -/
theorem performAll_set_get (k : BitVec 5) (v : Word) :
    performAll [.set k.toNat v, .get k.toNat] s
      = .ok [.none, .word (if k = 0#5 then 0#32 else v)] { s with regs := writeX s.regs k v } := by
  have hread : readX (writeX s.regs k v) k = if k = 0#5 then 0#32 else v := by
    split
    next hk => rw [hk, readX_zero]
    next hk => exact readX_writeX_same s.regs hk v
  have hget := perform_get (s := { s with regs := writeX s.regs k v }) hs k
  rw [hread] at hget
  exact performAll_cons_ok (perform_set hs k v) (performAll_cons_ok hget rfl)

end

/-! ## The statements -/

/-- Settles O20: `get` at a register index reads the register, whose value at a positive index is its slot. -/
theorem getReadsTheSlotOrZero : Obligations.GetReadsTheSlotOrZero := by
  refine ⟨fun s hs => ⟨perform_get hs 0#5, fun i h hpos => ?_⟩, _, rfl⟩
  obtain ⟨k, rfl⟩ := exists_register_of_lt h
  rw [perform_get hs, readX_of_ne_zero _ (ne_zero_of_toNat_pos hpos)]

/-- Settles O21: `set` at a register index is one register write, which is none at index 0; a second write replaces
the first. -/
theorem setWritesOneSlotOrNothing : Obligations.SetWritesOneSlotOrNothing := by
  refine ⟨fun s v hs => perform_set hs 0#5 v, fun s i h v hs hpos => ?_, fun s i v w hs h => ?_,
    ⟨_, performAll_set_get reset_status 0#5 _⟩, ⟨_, performAll_set_get reset_status 31#5 _⟩⟩
  · obtain ⟨k, rfl⟩ := exists_register_of_lt h
    exact ⟨_, perform_set hs k v, getElem_writeX_same _ (ne_zero_of_toNat_pos hpos) v,
      fun j hj hne => getElem_writeX_other _ k v hj hne, rfl, rfl⟩
  · obtain ⟨k, rfl⟩ := exists_register_of_lt h
    exact ⟨_, performAll_set_set hs k v w, perform_set hs k w⟩

/-- Settles O23: the advance writes slot 32 alone, below the bound at which the sum leaves 32 bits. -/
theorem advancePcAddsFour : Obligations.AdvancePcAddsFour := by
  refine ⟨fun s hs h => ?_, fun s hs h => perform_advancePc_refused hs h.not_ge, ?_⟩
  · exact ⟨advanced s, perform_advancePc hs h, (steppedOver_advanced h).pc,
      fun j hj => getElem_setPc_of_lt _ _ hj, rfl, rfl⟩
  · have hadvances : PcAdvances State.reset := by decide
    exact ⟨_, performAll_cons_ok (perform_advancePc reset_status hadvances)
      (performAll_cons_ok (perform_programCounter reset_status) rfl)⟩

/-- Settles O24: slot 32 is read and written as the PC, and the guard of `get` and `set` refuses every index above it. -/
theorem slotsAbove31 : Obligations.SlotsAbove31 := by
  intro s hs
  refine ⟨?_, fun v => ?_, fun i h => ⟨perform_get_above hs h, perform_set_above hs h⟩⟩
  · rw [perform_get_pc hs, perform_programCounter hs]
  · exact ⟨_, perform_set_pc hs v, programCounter_setPc .., fun j hj => getElem_setPc_of_lt _ v hj, rfl, rfl⟩

/-- Settles O22, from what `program_counter()` answers on any running machine. -/
theorem programCounterIsSlot32 : Obligations.ProgramCounterIsSlot32 :=
  ⟨fun _ => perform_programCounter, perform_programCounter reset_status⟩

end Sys2Proof.Machine
end

section
/-! The memory's operations (spec/43_memory_ops.md R88 to R93): the range a `load` writes, the word a `fetch32` reads,
and that the one reads back what the other wrote. -/

namespace Sys2Proof.Codec

/-- A joined vector in exact arithmetic: its upper part is weighted by the width of the lower. -/
theorem toNat_append_eq_add {m n : Nat} (x : BitVec m) (y : BitVec n) :
    (x ++ y).toNat = x.toNat * 2 ^ n + y.toNat := by
  rw [BitVec.toNat_append, ← Nat.shiftLeft_add_eq_or_of_lt y.isLt, Nat.shiftLeft_eq]

/-- A word is the sum of its bytes, each at its weight (R31). -/
theorem wordOfBytes_toNat (b0 b1 b2 b3 : Byte) : (wordOfBytes b0 b1 b2 b3).toNat
    = b0.toNat + 2 ^ 8 * b1.toNat + 2 ^ 16 * b2.toNat + 2 ^ 24 * b3.toNat := by
  simp only [wordOfBytes, toNat_append_eq_add]
  omega

end Sys2Proof.Codec

namespace Sys2Proof.Machine

/-! ## The range a load writes -/

/-- Byte `i` of a written range reads as byte `i` of the source (R88). -/
theorem read_writeBytes_at {m : Memory} (hm : Memory.wf m = true) {o : Nat} {bytes : List Byte}
    (ho : o + bytes.length ≤ Config.memSize) {i : Nat} (hi : i < bytes.length) :
    Memory.read (Memory.writeBytes m o bytes) (o + i) = bytes[i] := by
  rw [Memory.read_writeBytes bytes _ ho hm, if_pos (Nat.le_add_right o i), Nat.add_sub_cancel_left,
    List.getD_eq_getElem _ _ hi]

/-- A byte before or after a written range reads as it did (R88). -/
theorem read_writeBytes_off {m : Memory} (hm : Memory.wf m = true) {o : Nat} {bytes : List Byte}
    (ho : o + bytes.length ≤ Config.memSize) {p : Nat} (hp : p < o ∨ o + bytes.length ≤ p) :
    Memory.read (Memory.writeBytes m o bytes) p = Memory.read m p := by
  rw [Memory.read_writeBytes bytes p ho hm]
  obtain hbefore | hafter := hp
  · rw [if_neg hbefore.not_ge]
  · rw [if_pos (by omega), List.getD_eq_default _ _ (by omega)]

/-! ## The fetch of a loaded word -/

/-- Four bytes written at an address in bounds are the word fetched there (R93). -/
theorem fetch32_writeBytes {m : Memory} (hm : Memory.wf m = true) {a : Word} (h : InBounds a 4) (b0 b1 b2 b3 : Byte) :
    fetch32 (Memory.writeBytes m (offsetOf a) [b0, b1, b2, b3]) a = .ok (Codec.wordOfBytes b0 b1 b2 b3) := by
  rw [fetch32_eq, if_pos h, readWord_writeBytes hm (offsetOf_add_le h)]

section
variable {s : State} (hs : s.status = .running)
include hs

theorem perform_fetch32 {a v : Word} (h : fetch32 s.mem a = .ok v) : perform (.fetch32 a) s = .ok (.word v) s := by
  rw [perform_running hs, opEffect, h]
  rfl

/-- What the host's `fetch32` does out of bounds (R151, R152). -/
theorem perform_fetch32_fatal {a : Word} (h : ¬ InBounds a 4) :
    perform (.fetch32 a) s = .fatal (.boundsViolation a 4) (raiseFatal (.boundsViolation a 4) s) := by
  rw [perform_running hs, opEffect, fetch32_eq, if_neg h]
  rfl

/-- A four-byte `load` and then a `fetch32` of its address answer the word of the bytes (R93). -/
theorem performAll_load_fetch32 (hm : Memory.wf s.mem = true) {a : Word} (h : InBounds a 4) (b0 b1 b2 b3 : Byte) :
    performAll [.load a [b0, b1, b2, b3], .fetch32 a] s
      = .ok [.none, .word (Codec.wordOfBytes b0 b1 b2 b3)]
          { s with mem := Memory.writeBytes s.mem (offsetOf a) [b0, b1, b2, b3] } := by
  have hload := perform_load hs (bytes := [b0, b1, b2, b3]) h
  have hfetch := perform_fetch32 (s := { s with mem := Memory.writeBytes s.mem (offsetOf a) [b0, b1, b2, b3] }) hs
    (fetch32_writeBytes hm h b0 b1 b2 b3)
  exact performAll_cons_ok hload (performAll_cons_ok hfetch rfl)

end

/-! ## The statements -/

/-- Settles O26: a load in bounds is one range write, of which each byte is read inside the range or outside it. -/
theorem loadWritesItsRange : Obligations.LoadWritesItsRange := by
  refine ⟨fun s a bytes hs hm hb => ?_, fun s a bytes hs hout => ?_, ?_⟩
  · have hroom := offsetOf_add_le hb
    exact ⟨_, perform_load hs hb, fun i hi => read_writeBytes_at hm hroom hi,
      fun o ho => read_writeBytes_off hm hroom ho, rfl, rfl⟩
  · exact ⟨_, perform_load_fatal hs hout, raiseFatal_mem .., raiseFatal_regs .., raiseFatal_status ..⟩
  · have hb : InBounds 0x80000000#32 4 := by decide
    exact ⟨_, performAll_load_fetch32 reset_status rfl hb .., by decide⟩

/-- Settles O28: the word fetched is its four bytes by weight, and the address range is the bounds check of four bytes. -/
theorem fetchReadsLittleEndian : Obligations.FetchReadsLittleEndian := by
  refine ⟨fun s a hs hlow hhigh => ?_, fun s a hs hout => ?_, ?_⟩
  · have hb : InBounds a 4 := (inBounds_iff a 4).mpr ⟨hlow, by omega⟩
    have hfetch : fetch32 s.mem a = .ok (Memory.readWord s.mem (offsetOf a)) := by rw [fetch32_eq, if_pos hb]
    exact ⟨_, perform_fetch32 hs hfetch, Codec.wordOfBytes_toNat ..⟩
  · have hb : ¬ InBounds a 4 := by rw [inBounds_iff]; omega
    exact perform_fetch32_fatal hs hb
  · have hb : InBounds 0x80000008#32 4 := by decide
    exact ⟨_, performAll_load_fetch32 reset_status rfl hb ..⟩

/-- Settles O30: both writes are a four-byte range write, and the bytes of a word put together again are the word. -/
theorem loadThenFetchRoundTrip : Obligations.LoadThenFetchRoundTrip := by
  refine fun m a hm hb => ⟨fun v => ⟨_, if_pos hb, ?_⟩, fun b0 b1 b2 b3 => ⟨_, if_pos hb, ?_⟩⟩
  · exact (fetch32_writeBytes hm hb ..).trans (congrArg Result.ok (Codec.wordOfBytes_bytesOfWord v))
  · exact fetch32_writeBytes hm hb b0 b1 b2 b3

end Sys2Proof.Machine
end

section
/-! The step of the machine (spec/44_machine_step.md R94 to R96, R101): what it does by the status and the PC alone, and
that it is the meaning of the instruction at the PC, whatever that is. -/

namespace Sys2Proof.Machine

/-! ## The fetch and what follows it -/

theorem fetchWord_of_canStep {s : State} (h : CanStep s) : fetchWord s = .ok (fetched s) := by
  obtain ⟨hs, hb⟩ := h
  simp only [fetchWord_eq, hs, if_pos hb]

/-- The bytes at an offset decode to the instruction of the word they are (R31, R40). -/
theorem decodeBytes_read (m : Memory) (o : Nat) :
    decodeBytes [Memory.read m o, Memory.read m (o + 1), Memory.read m (o + 2), Memory.read m (o + 3)]
      = .ok (decodeWord (Memory.readWord m o), []) := rfl

/-- A machine that has stopped takes no step (R98, R153). -/
theorem step_of_fatal {s : State} {why : Fault} (hs : s.status = .fatal why) : step s = .refused .notRunning := by
  simp only [step_eq, hs]

/-- The addresses four bytes at which leave the window (R29). -/
theorem not_inBounds_four_iff (a : Word) : ¬ InBounds a 4 ↔ a.toNat < 0x80000000 ∨ 0x8003FFFC < a.toNat := by
  rw [inBounds_iff]
  omega

section
variable {s : State} (hs : s.status = .running) (hout : ¬ InBounds (programCounter s.regs) 4)
include hs hout

/-- R94's step ends at a fetch out of bounds, before it decodes or logs anything (R95). -/
theorem stepWithEvent_of_out_of_bounds : stepWithEvent s = .fault (.boundsViolation (programCounter s.regs) 4) := by
  have hfetch : fetchWord s = .fault (.boundsViolation (programCounter s.regs) 4) := by
    simp only [fetchWord_eq, hs, if_neg hout]
  rw [stepWithEvent, hfetch, Result.bind_fault]

theorem step_of_out_of_bounds : step s = .fault (.boundsViolation (programCounter s.regs) 4) := by
  rw [step_eq_toOutcome_stepWithEvent, stepWithEvent_of_out_of_bounds hs hout, toOutcome_fault]

/-- The operation `step` at a fetch out of bounds changes the status alone (R152). -/
theorem perform_step_of_out_of_bounds : perform .step s = .fatal (.boundsViolation (programCounter s.regs) 4)
    (raiseFatal (.boundsViolation (programCounter s.regs) 4) s) := by
  rw [perform_running hs, opEffect, stepWithEvent_of_out_of_bounds hs hout]
  rfl

end

/-! ## Every instruction -/

theorem completes_of_pcAdvances {s : State} (h : PcAdvances s) (i : Instr) : Completes i s :=
  ⟨advanced s, by rw [exec_eq_stepOver, stepOver_eq, if_pos h], steppedOver_advanced h⟩

theorem exec_of_not_pcAdvances {s : State} (h : ¬ PcAdvances s) (i : Instr) : exec i s = .refused .pcOverflow := by
  rw [exec_eq_stepOver, stepOver_eq, if_neg h]

/-! ## The statements -/

/-- Settles O35: a step that answers a next state fetched a word, advanced, and logged the word's record. -/
theorem stepExecutesNothing : Obligations.StepExecutesNothing := by
  refine ⟨fun s t hstep => ?_, fun s hcan => ⟨_, step_of_canStep hcan⟩⟩
  obtain ⟨hcan, rfl⟩ := step_eq_next hstep
  have hfetch := fetchWord_of_canStep hcan
  exact ⟨steppedOver_advanced (pcAdvances_of_inBounds hcan.2), fetched s, logEvent (fetched s) s, hfetch,
    stepWithEvent_of_fetchWord hfetch, rfl⟩

/-- Settles O36: the address range is the bounds check of four bytes, and the fatal error changes the status alone. -/
theorem fetchOutOfBoundsIsFatal : Obligations.FetchOutOfBoundsIsFatal := by
  intro s hs hpc
  have hout := (not_inBounds_four_iff _).mpr hpc
  exact ⟨step_of_out_of_bounds hs hout, stepWithEvent_of_out_of_bounds hs hout, _,
    perform_step_of_out_of_bounds hs hout, raiseFatal_regs .., raiseFatal_mem .., raiseFatal_status ..⟩

/-- Settles O39: the one shared meaning looks at the room above the PC alone, which every fetch in bounds leaves. -/
theorem everyInstructionNeedsRoomForThePc : Obligations.EveryInstructionNeedsRoomForThePc :=
  fun i _ => ⟨fun h => completes_of_pcAdvances h i,
    fun h => ⟨exec_of_not_pcAdvances h i, fun ⟨_, hb⟩ => h (pcAdvances_of_inBounds hb)⟩⟩

/-- Settles O53: the status and the PC decide which of its three ends a step has, and the next PC. -/
theorem controlFlowIgnoresRegistersAndMemory : Obligations.ControlFlowIgnoresRegistersAndMemory := by
  intro s s' hpc hstatus
  cases hs : s.status with
  | fatal why => exact .inr (.inr ⟨_, step_of_fatal hs, step_of_fatal (hstatus ▸ hs)⟩)
  | running =>
    have hs' : s'.status = .running := hstatus ▸ hs
    by_cases hb : InBounds (programCounter s.regs) 4
    · refine .inl ⟨_, _, step_of_canStep ⟨hs, hb⟩, step_of_canStep ⟨hs', hpc ▸ hb⟩, ?_⟩
      simp only [advanced_regs, programCounter_setPc, hpc]
    · refine .inr (.inl ⟨_, step_of_out_of_bounds hs hb, ?_⟩)
      rw [hpc] at hb ⊢
      exact step_of_out_of_bounds hs' hb

/-- Settles O33: the four bytes at the PC are the word a step fetches and runs. -/
theorem stepRunsTheDecodedInstruction : Obligations.StepRunsTheDecodedInstruction := by
  intro s i hcan o hbytes _
  have hword : decodeWord (fetched s) = i := by
    rw [decodeBytes_read] at hbytes
    exact (Prod.mk.inj (Except.ok.inj hbytes)).1
  rw [step_of_fetchWord (fetchWord_of_canStep hcan), hword]

end Sys2Proof.Machine
end

section
/-! The instructions (spec/44_machine_step.md R94, R96; spec/45_rv32i_opcode_classes.md R104 to R143): each completes
with the step's frame, and its event exposes the fields, the immediate and the operand values of the layout its word
has. -/

namespace Sys2Proof

/-! ## The record's immediates and source fields from the bits an instruction carries -/

theorem immI_eq_signExtend (w : Word) : (decode w).immI = (immIOf (decode w)).signExtend 32 := by
  rw [immIOf_decode, decode_immI]

theorem immS_eq_signExtend (w : Word) : (decode w).immS = (immSOf (decode w)).signExtend 32 := by
  rw [immSOf_decode, decode_immS]

theorem immB_eq_signExtend (w : Word) : (decode w).immB = (immBOf (decode w)).signExtend 32 := by
  rw [immBOf_decode, decode_immB]

theorem immU_eq_append (w : Word) : (decode w).immU = immUOf (decode w) ++ 0#12 := by
  rw [immUOf_decode, decode_immU]

theorem immJ_eq_signExtend (w : Word) : (decode w).immJ = (immJOf (decode w)).signExtend 32 := by
  rw [immJOf_decode, decode_immJ]

theorem rs2_eq_slice_immIOf (w : Word) : (decode w).rs2 = (immIOf (decode w)).extractLsb' 0 5 := by
  rw [immIOf_decode, decode_rs2, extractLsb'_extractLsb' w (by omega)]

theorem rs1_eq_slice_immUOf (w : Word) : (decode w).rs1 = (immUOf (decode w)).extractLsb' 3 5 := by
  rw [immUOf_decode, decode_rs1, extractLsb'_extractLsb' w (by omega)]

theorem rs2_eq_slice_immUOf (w : Word) : (decode w).rs2 = (immUOf (decode w)).extractLsb' 8 5 := by
  rw [immUOf_decode, decode_rs2, extractLsb'_extractLsb' w (by omega)]

theorem rs1_eq_slice_immJOf (w : Word) : (decode w).rs1 = (immJOf (decode w)).extractLsb' 15 5 := by
  rw [immJOf_decode, decode_rs1, immJBits]
  simp (disch := omega) only [BitVec.extractLsb'_append_eq_of_le, BitVec.extractLsb'_append_eq_of_add_le,
    extractLsb'_extractLsb']

/-- The J layout's field at `rs2` is the scrambled one: bits 4:1 and, below them, bit 11 (R48). -/
theorem rs2_eq_slices_immJOf (w : Word) :
    (decode w).rs2 = (immJOf (decode w)).extractLsb' 1 4 ++ (immJOf (decode w)).extractLsb' 11 1 := by
  rw [immJOf_decode, decode_rs2, immJBits]
  simp (disch := omega) only [BitVec.extractLsb'_append_eq_of_le, BitVec.extractLsb'_append_eq_of_add_le,
    extractLsb'_extractLsb', BitVec.extractLsb'_append_extractLsb'_eq_extractLsb']

/-! ## A shift's word in the two layouts (R128 to R130) -/

/-- An R layout is the I layout whose immediate has `funct7` above `rs2`. -/
theorem encodeR_eq_encodeI (op rd f3 rs1 rs2 f7) : encodeR op rd f3 rs1 rs2 f7 = encodeI op rd f3 rs1 (f7 ++ rs2) := rfl

theorem immI_encodeR (op rd f3 rs1 rs2 f7) :
    (decode (encodeR op rd f3 rs1 rs2 f7)).immI = (f7 ++ rs2).signExtend 32 := by
  rw [encodeR_eq_encodeI, immI_eq_signExtend]
  obtain ⟨-, -, -, -, himm⟩ := fields_encodeI op rd f3 rs1 (f7 ++ rs2)
  exact congrArg (BitVec.signExtend 32) himm

/-- With `funct7` zero the immediate is the amount (R128, R129). -/
theorem immI_encodeR_of_funct7_zero (op rd f3 rs1 rs2) :
    (decode (encodeR op rd f3 rs1 rs2 0#7)).immI = rs2.setWidth 32 := by
  have hmsb : (0#7 ++ rs2).msb = false := by rw [BitVec.msb_append]; rfl
  rw [immI_encodeR, BitVec.signExtend_eq_setWidth_of_msb_false hmsb, BitVec.setWidth_append_eq_shiftLeft_setWidth_or]
  simp

/-- The immediate's low five bits are the amount, whatever `funct7` is (R128 to R130). -/
theorem amount_immI_encodeR (op rd f3 rs1 rs2 f7) :
    (decode (encodeR op rd f3 rs1 rs2 f7)).immI.extractLsb' 0 5 = rs2 := by
  rw [immI_encodeR, extractLsb'_signExtend _ (by omega) (by omega), extractLsb'_zero_append]

/-- Bit 10 of the immediate is bit 5 of `funct7` (R130). -/
theorem bit10_immI_encodeR (op rd f3 rs1 rs2 f7) :
    (decode (encodeR op rd f3 rs1 rs2 f7)).immI.getLsbD 10 = f7.getLsbD 5 := by
  rw [immI_encodeR, getLsbD_signExtend_of_lt _ (by omega) (by omega), BitVec.getLsbD_append]
  simp

end Sys2Proof

namespace Sys2Proof.Machine

/-! ## What an event exposes, from the layout of its word -/

section
variable {i : Instr} (s : State) {op : BitVec 7} {rd rs1 rs2 : BitVec 5} {f3 : BitVec 3}

theorem exposesR_of_encode {f7 : BitVec 7} (h : encode i = encodeR op rd f3 rs1 rs2 f7) :
    ExposesR i s op rd f3 rs1 rs2 f7 := by
  obtain ⟨hop, hrd, hf3, hrs1, hrs2, hf7⟩ := h ▸ fields_encodeR op rd f3 rs1 rs2 f7
  exact ⟨⟨rfl, rfl⟩, hop, hrd, hf3, hrs1, hrs2, hf7, congrArg (readX s.regs) hrs1, congrArg (readX s.regs) hrs2⟩

theorem exposesI_of_encode {imm : BitVec 12} (h : encode i = encodeI op rd f3 rs1 imm) :
    ExposesI i s op rd f3 rs1 imm := by
  obtain ⟨hop, hrd, hf3, hrs1, himm⟩ := h ▸ fields_encodeI op rd f3 rs1 imm
  have hrs2 := rs2_eq_slice_immIOf (encode i)
  have himmI := immI_eq_signExtend (encode i)
  rw [himm] at hrs2 himmI
  exact ⟨⟨rfl, rfl⟩, hop, hrd, hf3, hrs1, himmI, congrArg (readX s.regs) hrs1, congrArg (readX s.regs) hrs2⟩

theorem exposesS_of_encode {imm : BitVec 12} (h : encode i = encodeS op f3 rs1 rs2 imm) :
    ExposesS i s op f3 rs1 rs2 imm := by
  obtain ⟨hop, hf3, hrs1, hrs2, himm⟩ := h ▸ fields_encodeS op f3 rs1 rs2 imm
  have himmS := immS_eq_signExtend (encode i)
  rw [himm] at himmS
  exact ⟨⟨rfl, rfl⟩, hop, hf3, hrs1, hrs2, himmS, congrArg (readX s.regs) hrs1, congrArg (readX s.regs) hrs2⟩

theorem exposesB_of_encode {imm : BitVec 13} (heven : imm.getLsbD 0 = false)
    (h : encode i = encodeB op f3 rs1 rs2 imm) : ExposesB i s op f3 rs1 rs2 imm := by
  obtain ⟨hop, hf3, hrs1, hrs2, himm⟩ := h ▸ fields_encodeB op f3 rs1 rs2 imm heven
  have himmB := immB_eq_signExtend (encode i)
  rw [himm] at himmB
  exact ⟨⟨rfl, rfl⟩, hop, hf3, hrs1, hrs2, himmB, congrArg (readX s.regs) hrs1, congrArg (readX s.regs) hrs2⟩

theorem exposesU_of_encode {imm : BitVec 20} (h : encode i = encodeU op rd imm) : ExposesU i s op rd imm := by
  obtain ⟨hop, hrd, himm⟩ := h ▸ fields_encodeU op rd imm
  have hrs1 := rs1_eq_slice_immUOf (encode i)
  have hrs2 := rs2_eq_slice_immUOf (encode i)
  have himmU := immU_eq_append (encode i)
  rw [himm] at hrs1 hrs2 himmU
  exact ⟨⟨rfl, rfl⟩, hop, hrd, himmU, congrArg (readX s.regs) hrs1, congrArg (readX s.regs) hrs2⟩

theorem exposesJ_of_encode {imm : BitVec 21} (heven : imm.getLsbD 0 = false) (h : encode i = encodeJ op rd imm) :
    ExposesJ i s op rd imm := by
  obtain ⟨hop, hrd, himm⟩ := h ▸ fields_encodeJ op rd imm heven
  have hrs1 := rs1_eq_slice_immJOf (encode i)
  have hrs2 := rs2_eq_slices_immJOf (encode i)
  have himmJ := immJ_eq_signExtend (encode i)
  rw [himm] at hrs1 hrs2 himmJ
  exact ⟨⟨rfl, rfl⟩, hop, hrd, himmJ, congrArg (readX s.regs) hrs1, congrArg (readX s.regs) hrs2⟩

end

/-! ## The statements: each instruction's word is a layout, by the definition of `encode` -/

/-- Settles O40: a view is its own layout. -/
theorem viewsComplete : Obligations.ViewsComplete := by
  intro s hpc
  have hcompletes := completes_of_pcAdvances hpc
  exact ⟨fun _ _ _ _ _ _ => ⟨hcompletes _, exposesR_of_encode s rfl⟩,
    fun _ _ _ _ _ => ⟨hcompletes _, exposesI_of_encode s rfl⟩,
    fun _ _ _ _ _ => ⟨hcompletes _, exposesS_of_encode s rfl⟩,
    fun _ _ _ _ _ => ⟨hcompletes _, fun heven => exposesB_of_encode s heven rfl⟩,
    fun _ _ _ => ⟨hcompletes _, exposesU_of_encode s rfl⟩,
    fun _ _ _ => ⟨hcompletes _, fun heven => exposesJ_of_encode s heven rfl⟩⟩

/-- Settles O41: LUI and AUIPC are U layouts, JAL is a J layout and JALR an I layout. -/
theorem upperAndJumpsComplete : Obligations.UpperAndJumpsComplete := by
  intro s rd hpc
  have hcompletes := completes_of_pcAdvances hpc
  exact ⟨fun _ => ⟨hcompletes _, exposesU_of_encode s rfl⟩, fun _ => ⟨hcompletes _, exposesU_of_encode s rfl⟩,
    fun _ => ⟨hcompletes _, fun heven => exposesJ_of_encode s heven rfl⟩,
    fun _ _ => ⟨hcompletes _, exposesI_of_encode s rfl⟩⟩

/-- Settles O42: each branch is the B layout of its `funct3`. -/
theorem branchesComplete : Obligations.BranchesComplete := by
  intro s rs1 rs2 imm hpc
  have hcompletes := completes_of_pcAdvances hpc
  refine ⟨⟨hcompletes _, hcompletes _, hcompletes _, hcompletes _, hcompletes _, hcompletes _⟩, fun heven => ?_⟩
  have hexposes {i f3} := exposesB_of_encode (i := i) (f3 := f3) (op := 0x63#7) (rs1 := rs1) (rs2 := rs2) s heven
  exact ⟨hexposes rfl, hexposes rfl, hexposes rfl, hexposes rfl, hexposes rfl, hexposes rfl⟩

/-- Settles O43: each load instruction is the I layout of its `funct3`. -/
theorem loadInstructionsComplete : Obligations.LoadInstructionsComplete := by
  intro s rd rs1 imm hpc
  have hcompletes := completes_of_pcAdvances hpc
  exact ⟨⟨hcompletes _, hcompletes _, hcompletes _, hcompletes _, hcompletes _⟩, exposesI_of_encode s rfl,
    exposesI_of_encode s rfl, exposesI_of_encode s rfl, exposesI_of_encode s rfl, exposesI_of_encode s rfl⟩

/-- Settles O44: each store instruction is the S layout of its `funct3`. -/
theorem storeInstructionsComplete : Obligations.StoreInstructionsComplete := by
  intro s rs1 rs2 imm hpc
  have hcompletes := completes_of_pcAdvances hpc
  exact ⟨⟨hcompletes _, hcompletes _, hcompletes _⟩, exposesS_of_encode s rfl, exposesS_of_encode s rfl,
    exposesS_of_encode s rfl⟩

/-- Settles O45: the six with a 12-bit immediate are I layouts; a shift is an R layout, and the I layout whose
immediate has `funct7` above the amount. -/
theorem registerImmediatesComplete : Obligations.RegisterImmediatesComplete := by
  intro s rd rs1 hpc
  have hcompletes := completes_of_pcAdvances hpc
  refine ⟨fun imm => ?_, fun shamt => ?_⟩
  · exact ⟨⟨hcompletes _, hcompletes _, hcompletes _, hcompletes _, hcompletes _, hcompletes _⟩,
      exposesI_of_encode s rfl, exposesI_of_encode s rfl, exposesI_of_encode s rfl, exposesI_of_encode s rfl,
      exposesI_of_encode s rfl, exposesI_of_encode s rfl⟩
  · exact ⟨⟨hcompletes _, hcompletes _, hcompletes _⟩,
      exposesR_of_encode s rfl, exposesR_of_encode s rfl, exposesR_of_encode s rfl,
      exposesI_of_encode s (encodeR_eq_encodeI ..), exposesI_of_encode s (encodeR_eq_encodeI ..),
      exposesI_of_encode s (encodeR_eq_encodeI ..),
      immI_encodeR_of_funct7_zero .., immI_encodeR_of_funct7_zero .., amount_immI_encodeR .., bit10_immI_encodeR ..⟩

/-- Settles O46: each register-register instruction is the R layout of its `funct3` and `funct7`. -/
theorem registerRegistersComplete : Obligations.RegisterRegistersComplete := by
  intro s rd rs1 rs2 hpc
  have hcompletes := completes_of_pcAdvances hpc
  exact ⟨⟨hcompletes _, hcompletes _, hcompletes _, hcompletes _, hcompletes _, hcompletes _, hcompletes _,
      hcompletes _, hcompletes _, hcompletes _⟩,
    exposesR_of_encode s rfl, exposesR_of_encode s rfl, exposesR_of_encode s rfl, exposesR_of_encode s rfl,
    exposesR_of_encode s rfl, exposesR_of_encode s rfl, exposesR_of_encode s rfl, exposesR_of_encode s rfl,
    exposesR_of_encode s rfl, exposesR_of_encode s rfl⟩

/-- Settles O47: FENCE is an I layout, and the two whole words are I layouts with zero registers. -/
theorem fenceAndSystemComplete : Obligations.FenceAndSystemComplete := by
  intro s hpc
  have hcompletes := completes_of_pcAdvances hpc
  exact ⟨fun _ _ _ => ⟨hcompletes _, exposesI_of_encode s rfl⟩,
    ⟨hcompletes _, exposesI_of_encode s (by decide)⟩, ⟨hcompletes _, exposesI_of_encode s (by decide)⟩⟩

end Sys2Proof.Machine
end

section
/-! The run (spec/44_machine_step.md R97 to R100, decision D10): the state after `k` steps in closed form, the steps the
window has room for, and the events they emit. -/

namespace Sys2Proof.Machine

/-! ## The state after k advances -/

/-- The state `k` advances leave: the PC `4k` further and nothing else changed. -/
def advancedBy (k : Nat) (s : State) : State :=
  { s with regs := setPc s.regs (programCounter s.regs + BitVec.ofNat 32 (4 * k)) }

@[simp] theorem advancedBy_mem (k : Nat) (s : State) : (advancedBy k s).mem = s.mem := rfl
@[simp] theorem advancedBy_status (k : Nat) (s : State) : (advancedBy k s).status = s.status := rfl
@[simp] theorem programCounter_advancedBy (k : Nat) (s : State) :
    programCounter (advancedBy k s).regs = programCounter s.regs + BitVec.ofNat 32 (4 * k) := programCounter_setPc ..
@[simp] theorem readX_advancedBy (k : Nat) (s : State) (i : BitVec 5) :
    readX (advancedBy k s).regs i = readX s.regs i := readX_setPc ..

theorem setPc_programCounter (r : RegFile) : setPc r (programCounter r) = r := Vector.set_getElem_self ..

theorem setPc_setPc (r : RegFile) (v w : Word) : setPc (setPc r v) w = setPc r w := Vector.set_set ..

@[simp] theorem advancedBy_zero (s : State) : advancedBy 0 s = s := by
  rw [advancedBy, Nat.mul_zero, BitVec.add_zero, setPc_programCounter]

/-- One advance first and then the others. -/
theorem advancedBy_advanced (k : Nat) (s : State) : advancedBy k (advanced s) = advancedBy (k + 1) s := by
  have hpc : programCounter s.regs + 4#32 + BitVec.ofNat 32 (4 * k)
      = programCounter s.regs + BitVec.ofNat 32 (4 * (k + 1)) := by
    rw [BitVec.add_assoc, ← BitVec.ofNat_add, Nat.mul_succ, Nat.add_comm]
  simp only [advancedBy, advanced_regs, programCounter_setPc, setPc_setPc, hpc, advanced_mem, advanced_status]

/-! ## The room for steps -/

/-- The machine runs and `k` steps find their fetches in the window. -/
structure HasRoom (k : Nat) (s : State) : Prop where
  running : s.status = .running
  base : 0x80000000 ≤ (programCounter s.regs).toNat
  room : (programCounter s.regs).toNat + 4 * k ≤ 0x80040000

theorem hasRoom_of_base {s : State} (hs : s.status = .running) (hpc : programCounter s.regs = 0x80000000#32) {k : Nat}
    (hk : k ≤ 65536) : HasRoom k s := by
  have hbase : (programCounter s.regs).toNat = 0x80000000 := congrArg BitVec.toNat hpc
  exact ⟨hs, hbase.ge, by omega⟩

section
variable {k : Nat} {s : State}

theorem HasRoom.toNat_programCounter (h : HasRoom k s) :
    (programCounter (advancedBy k s).regs).toNat = (programCounter s.regs).toNat + 4 * k := by
  have hroom := h.room
  rw [programCounter_advancedBy, BitVec.toNat_add, BitVec.toNat_ofNat, Nat.add_mod_mod, Nat.mod_eq_of_lt (by omega)]

theorem HasRoom.canStep (h : HasRoom (k + 1) s) : CanStep s := by
  have hroom := h.room
  exact ⟨h.running, (inBounds_iff _ 4).mpr ⟨h.base, by omega⟩⟩

theorem HasRoom.advanced (h : HasRoom (k + 1) s) : HasRoom k (advanced s) := by
  have hbase := h.base
  have hroom := h.room
  have hpc := (steppedOver_advanced (pcAdvances_of_inBounds h.canStep.2)).pc
  exact ⟨h.running, by omega, by omega⟩

end

/-! ## Runs -/

/-- The steps that have room are advances, and the run goes on from there (R100). -/
theorem coreRun_add_of_hasRoom {j : Nat} {s : State} (h : HasRoom j s) (k : Nat) :
    Sys2Proof.core.run (j + k) s = Sys2Proof.core.run k (advancedBy j s) := by
  induction j generalizing s with
  | zero => rw [Nat.zero_add, advancedBy_zero]
  | succ j ih =>
    rw [Nat.succ_add, coreRun_next (step_of_canStep h.canStep), ih h.advanced, advancedBy_advanced]

theorem coreRun_of_hasRoom {k : Nat} {s : State} (h : HasRoom k s) : Sys2Proof.core.run k s = .next (advancedBy k s) :=
  coreRun_add_of_hasRoom h 0

/-- The step after the last that has room is fatal at `MEM_END`, and so is every run that reaches it (R95, R100). -/
theorem coreRun_past_window {j k : Nat} {s : State} (h : HasRoom j s) (hk : j < k)
    (hend : programCounter (advancedBy j s).regs = 0x80040000#32) :
    Sys2Proof.core.run k s = .fault (.boundsViolation 0x80040000#32 4) := by
  obtain ⟨m, rfl⟩ := Nat.exists_eq_add_of_lt hk
  have hout : ¬ InBounds (programCounter (advancedBy j s).regs) 4 := by rw [hend]; decide
  have hfault := step_of_out_of_bounds (s := advancedBy j s) h.running hout
  rw [Nat.add_assoc, coreRun_add_of_hasRoom h, coreRun_fault hfault, hend]

/-! ## The events of a run -/

/-- A step that completes emits its event before those of the steps after it (R97, R99). -/
theorem runSteps_succ {s t : State} {e : LogEvent} (h : perform .step s = .ok (.event e) t) (n : Nat) :
    runSteps (n + 1) s = (e :: (runSteps n t).1, (runSteps n t).2) := by
  rw [runSteps, h]

/-- The event of the step after `i` advances. -/
def eventAfter (s : State) (i : Nat) : LogEvent := logEvent (fetched (advancedBy i s)) (advancedBy i s)

theorem eventAfter_advanced (s : State) : eventAfter (advanced s) = eventAfter s ∘ Nat.succ := by
  funext i
  rw [eventAfter, advancedBy_advanced]
  rfl

theorem perform_step_of_canStep {s : State} (h : CanStep s) :
    perform .step s = .ok (.event (eventAfter s 0)) (advanced s) := by
  rw [eventAfter, advancedBy_zero]
  exact perform_step_of_stepWithEvent h.1 (stepWithEvent_of_fetchWord (fetchWord_of_canStep h))

theorem runSteps_of_hasRoom {k : Nat} {s : State} (h : HasRoom k s) :
    runSteps k s = ((List.range k).map (eventAfter s), .ok () (advancedBy k s)) := by
  induction k generalizing s with
  | zero => rw [advancedBy_zero]; rfl
  | succ k ih =>
    rw [runSteps_succ (perform_step_of_canStep h.canStep), ih h.advanced, advancedBy_advanced,
      List.range_succ_eq_map, List.map_cons, List.map_map, eventAfter_advanced]

/-- In a run from `BASE` the `i`-th event is of the `i`-th word of the buffer (R26, R97). -/
theorem eventAfter_of_base {s : State} (hpc : programCounter s.regs = 0x80000000#32) {i : Nat} (hi : i < 65536) :
    eventAfter s i = { address := BitVec.ofNat 32 (0x80000000 + 4 * i), word := Memory.readWord s.mem (4 * i)
                       decoded := decode (Memory.readWord s.mem (4 * i))
                       vs1 := readX s.regs (decode (Memory.readWord s.mem (4 * i))).rs1
                       vs2 := readX s.regs (decode (Memory.readWord s.mem (4 * i))).rs2 } := by
  have haddress : programCounter (advancedBy i s).regs = BitVec.ofNat 32 (0x80000000 + 4 * i) := by
    rw [programCounter_advancedBy, hpc, BitVec.ofNat_add]
  have hword : fetched (advancedBy i s) = Memory.readWord s.mem (4 * i) := by
    have hoffset : (BitVec.ofNat 32 (0x80000000 + 4 * i)).toNat - 0x80000000 = 4 * i := by
      rw [BitVec.toNat_ofNat]
      omega
    rw [fetched, haddress, offsetOf_eq, hoffset, advancedBy_mem]
  simp only [eventAfter, logEvent, readOperands, hword, haddress, readX_advancedBy]

/-! ## The statements -/

/-- Settles O51: the window has room for 65,536 steps from `BASE`, each an advance; after them the PC is `MEM_END`. -/
theorem runLengthIsBoundedByTheWindow : Obligations.RunLengthIsBoundedByTheWindow := by
  refine fun s hs hpc => ⟨fun k hk => ?_, fun k hk => ?_⟩
  · have hroom := hasRoom_of_base hs hpc hk
    have hend := hroom.toNat_programCounter
    rw [hpc] at hend
    exact ⟨advancedBy k s, coreRun_of_hasRoom hroom, hend, readX_advancedBy k s, rfl, hs⟩
  · refine coreRun_past_window (hasRoom_of_base hs hpc le_rfl) hk ?_
    rw [programCounter_advancedBy, hpc]
    rfl

/-- Settles O52: each step that has room emits the event of the word at its PC. -/
theorem runEmitsOneEventAStep : Obligations.RunEmitsOneEventAStep := by
  intro s hs hpc k hk
  rw [runSteps_of_hasRoom (hasRoom_of_base hs hpc hk)]
  exact ⟨List.map_congr_left fun i hi => eventAfter_of_base hpc (by have := List.mem_range.mp hi; omega), rfl⟩

end Sys2Proof.Machine
end

section
/-! The rows of the opcode table (spec/45_rv32i_opcode_classes.md R102 to R143): the fields that decide a row, the words
a row selects, and the views of the other words. -/

namespace Sys2Proof

/-! ## The fields that decide the row of a tag -/

/-- Under this opcode the tag reads `funct3`: so under every opcode but those of LUI, AUIPC and JAL. -/
abbrev ReadsFunct3 (op : BitVec 7) : Prop := op ≠ 0x37#7 ∧ op ≠ 0x17#7 ∧ op ≠ 0x6F#7

/-- Under this opcode and `funct3` the tag reads `funct7`: the register-register operations and the shifts. -/
abbrev ReadsFunct7 (op : BitVec 7) (f3 : BitVec 3) : Prop := op = 0x33#7 ∨ op = 0x13#7 ∧ (f3 = 1 ∨ f3 = 5)

section
variable {d e : DecodedInstruction}

theorem mnemonic_tagBranch_congr (hf3 : d.funct3 = e.funct3) : (tagBranch d).mnemonic = (tagBranch e).mnemonic := by
  simp only [tagBranch, hf3, apply_ite Instr.mnemonic]
  rfl

theorem mnemonic_tagLoad_congr (hf3 : d.funct3 = e.funct3) : (tagLoad d).mnemonic = (tagLoad e).mnemonic := by
  simp only [tagLoad, hf3, apply_ite Instr.mnemonic]
  rfl

theorem mnemonic_tagStore_congr (hf3 : d.funct3 = e.funct3) : (tagStore d).mnemonic = (tagStore e).mnemonic := by
  simp only [tagStore, hf3, apply_ite Instr.mnemonic]
  rfl

theorem mnemonic_tagOp_congr (hf3 : d.funct3 = e.funct3) (hf7 : d.funct7 = e.funct7) :
    (tagOp d).mnemonic = (tagOp e).mnemonic := by
  simp only [tagOp, hf3, hf7, apply_ite Instr.mnemonic]
  rfl

/-- In a word that is no shift `funct7` is a part of the immediate (R44). -/
theorem mnemonic_tagOpImm_congr (hf3 : d.funct3 = e.funct3)
    (hf7 : e.funct3 = 1 ∨ e.funct3 = 5 → d.funct7 = e.funct7) : (tagOpImm d).mnemonic = (tagOpImm e).mnemonic := by
  by_cases hshift : e.funct3 = 1 ∨ e.funct3 = 5
  · simp only [tagOpImm, hf3, hf7 hshift, apply_ite Instr.mnemonic]
    rfl
  · obtain ⟨hne1, hne5⟩ := not_or.mp hshift
    simp only [tagOpImm, hf3, hne1, hne5, false_and, if_false, apply_ite Instr.mnemonic]
    rfl

/-- Records that agree in the fields the tag reads are tagged with the same row or view. -/
theorem mnemonic_tag_congr (hop : d.opcode = e.opcode) (hf3 : ReadsFunct3 e.opcode → d.funct3 = e.funct3)
    (hf7 : ReadsFunct7 e.opcode e.funct3 → d.funct7 = e.funct7) (hsystem : e.opcode = 0x73#7 → d = e) :
    (tag d).mnemonic = (tag e).mnemonic := by
  have hfunct3 {op} (h : e.opcode = op) (hreads : ReadsFunct3 op) : d.funct3 = e.funct3 := hf3 (h ▸ hreads)
  rcases opcode_cases e.opcode with h | h | h | h | h | h | h | h | h | h | h | h
  · rw [tag_of_lui h, tag_of_lui (hop.trans h)]; rfl
  · rw [tag_of_auipc h, tag_of_auipc (hop.trans h)]; rfl
  · rw [tag_of_jal h, tag_of_jal (hop.trans h)]; rfl
  · simp only [tag_of_jalr h, tag_of_jalr (hop.trans h), hfunct3 h (by decide), apply_ite Instr.mnemonic]; rfl
  · rw [tag_of_branch h, tag_of_branch (hop.trans h), mnemonic_tagBranch_congr (hfunct3 h (by decide))]
  · rw [tag_of_load h, tag_of_load (hop.trans h), mnemonic_tagLoad_congr (hfunct3 h (by decide))]
  · rw [tag_of_store h, tag_of_store (hop.trans h), mnemonic_tagStore_congr (hfunct3 h (by decide))]
  · rw [tag_of_opImm h, tag_of_opImm (hop.trans h),
      mnemonic_tagOpImm_congr (hfunct3 h (by decide)) fun hshift => hf7 (.inr ⟨h, hshift⟩)]
  · rw [tag_of_op h, tag_of_op (hop.trans h), mnemonic_tagOp_congr (hfunct3 h (by decide)) (hf7 (.inl h))]
  · simp only [tag_of_fence h, tag_of_fence (hop.trans h), hfunct3 h (by decide), apply_ite Instr.mnemonic]; rfl
  · rw [hsystem h]
  · rw [tag_of_no_format h, tag_of_no_format (hop ▸ h)]; rfl

end

/-! ## The words a row selects -/

/-- Each row's mask covers the fields that the tag reads at the row's match (R103). -/
theorem opcodeRows_masks_cover : ∀ r ∈ opcodeRows,
    (decode r.mask).opcode = .allOnes 7 ∧
    (ReadsFunct3 (decode r.value).opcode → (decode r.mask).funct3 = .allOnes 3) ∧
    (ReadsFunct7 (decode r.value).opcode (decode r.value).funct3 → (decode r.mask).funct7 = .allOnes 7) ∧
    ((decode r.value).opcode = 0x73#7 → r.mask = .allOnes 32) := by
  decide

/-- Each row's match, its word with every free bit zero, decodes to the row's instruction. -/
theorem mnemonic_decodeWord_value : ∀ r ∈ opcodeRows, (decodeWord r.value).mnemonic = r.mnemonic := by
  decide

/-- A field that the mask covers is the match's. -/
theorem extractLsb'_eq_of_and_eq {m : Nat} {x mask value : BitVec m} (h : x &&& mask = value) {start len : Nat}
    (hmask : mask.extractLsb' start len = .allOnes len) : x.extractLsb' start len = value.extractLsb' start len := by
  rw [← h, BitVec.extractLsb'_and, hmask, BitVec.and_allOnes]

/-- A word a row selects agrees with the row's match in all that the tag reads. -/
theorem mnemonic_decodeWord_of_selects {r : OpcodeRow} (hr : r ∈ opcodeRows) {w : Word} (h : r.selects w) :
    (decodeWord w).mnemonic = r.mnemonic := by
  obtain ⟨hop, hf3, hf7, hsystem⟩ := opcodeRows_masks_cover r hr
  rw [← mnemonic_decodeWord_value r hr]
  refine mnemonic_tag_congr ?_ (fun hreads => ?_) (fun hreads => ?_) (fun hop73 => ?_)
  · rw [decode_opcode] at hop ⊢
    exact (extractLsb'_eq_of_and_eq h hop).trans (decode_opcode _).symm
  · have hmask := hf3 hreads
    rw [decode_funct3] at hmask ⊢
    exact (extractLsb'_eq_of_and_eq h hmask).trans (decode_funct3 _).symm
  · have hmask := hf7 hreads
    rw [decode_funct7] at hmask ⊢
    exact (extractLsb'_eq_of_and_eq h hmask).trans (decode_funct7 _).symm
  · rw [← h, hsystem hop73, BitVec.and_allOnes]

/-! ## The row of an instruction -/

theorem mnemonic_view_ne_row (f : Format) (d : DecodedInstruction) :
    ∀ r ∈ opcodeRows, (view f d).mnemonic ≠ r.mnemonic := by
  cases f <;> (simp only [view, Instr.mnemonic]; decide)

/-- No two rows of R103 are of one instruction. -/
theorem nodup_opcodeRows_mnemonic : (opcodeRows.map OpcodeRow.mnemonic).Nodup := by decide

/-! ## The statements -/

/-- Settles O18, by the tag's case analysis for a word no row selects. -/
theorem otherWordsGetTheViewOfTheirFormat : Obligations.OtherWordsGetTheViewOfTheirFormat :=
  fun _ hno => decodeWord_of_no_row hno

/-- Settles O17: a selected word has the fields of the row's match; and a word that decodes to a row's instruction is
selected by some row, which is that one because no two rows are of one instruction. -/
theorem opcodeRowsSelectTheirInstructions : Obligations.OpcodeRowsSelectTheirInstructions := by
  refine fun w r hr => ⟨mnemonic_decodeWord_of_selects hr, fun hmnemonic => ?_⟩
  cases hrow : isRowWord w with
  | false =>
    rw [decodeWord_of_no_row hrow] at hmnemonic
    exact absurd hmnemonic (mnemonic_view_ne_row _ _ r hr)
  | true =>
    obtain ⟨q, hq, hany⟩ := List.any_eq_true.mp hrow
    have hselects : q.selects w := of_decide_eq_true hany
    have hqr : q = r := List.inj_on_of_nodup_map nodup_opcodeRows_mnemonic hq hr
      ((mnemonic_decodeWord_of_selects hq hselects).symm.trans hmnemonic)
    exact hqr ▸ hselects

/-- Settles O19, by decoding the sixteen words. -/
theorem exampleWordsDecode : Obligations.ExampleWordsDecode := by
  unfold Obligations.ExampleWordsDecode
  decide

end Sys2Proof
end

section
/-! Fatal errors, the loader and the dumps (spec/60_exceptions.md R152 to R154, R164 to R166; spec/70_reset_and_hazards.md
R172 to R178): what a stopped machine refuses, the two ends of a loader and of a run, and what a dump shows. -/

namespace Sys2Proof.Codec

/-- The bytes of a word put together from four are the four, lowest address first (R31, R92). -/
theorem bytesOfWord_wordOfBytes (b0 b1 b2 b3 : Byte) :
    bytesOfWord (wordOfBytes b0 b1 b2 b3) = [b0, b1, b2, b3] := by
  have hword := wordOfBytes_toNat b0 b1 b2 b3
  have h0 := b0.isLt
  have h1 := b1.isLt
  have h2 := b2.isLt
  have h3 := b3.isLt
  simp only [bytesOfWord, List.cons.injEq, and_true]
  refine ⟨?_, ?_, ?_, ?_⟩ <;>
    · apply BitVec.eq_of_toNat_eq
      rw [BitVec.extractLsb'_toNat, hword, Nat.shiftRight_eq_div_pow]
      omega

end Sys2Proof.Codec

namespace Sys2Proof.Machine

/-! ## A stopped machine -/

section
variable {s : State} {why : Fault} (hs : s.status = .fatal why)
include hs

/-- A machine that has stopped accepts construction alone (R153). -/
theorem perform_of_fatal {op : HostOp} (hop : op ≠ .reset) : perform op s = .refuse .notRunning := by
  rw [perform, if_neg hop, hs]

theorem runLoader_of_fatal (image : Image) : runLoader image s = .refuse .notRunning := by
  unfold runLoader
  rw [hs]

theorem runSteps_succ_of_fatal (n : Nat) : runSteps (n + 1) s = ([], .refuse .notRunning) := by
  rw [runSteps, perform_of_fatal hs (by decide)]

end

/-! ## The loader -/

theorem runLoader_unparsable {s : State} (hs : s.status = .running) :
    runLoader .unparsable s = .fatal .malformedImage (raiseFatal .malformedImage s) := by
  rw [runLoader, hs]

theorem runLoader_parsed {s : State} (hs : s.status = .running) (items : List LoadItem) :
    runLoader (.parsed items) s = loadItems items s := by
  rw [runLoader, hs]

/-- A segment below `BASE` is skipped (R176). -/
theorem loadItems_segment_below {a : Word} (h : ¬ Config.base ≤ a.toNat) (bytes : List Byte) (rest : List LoadItem)
    (s : State) : loadItems (.segment a bytes :: rest) s = loadItems rest s := by
  rw [loadItems, if_neg h]

/-- A segment in bounds is loaded, and the walk goes on (R176). -/
theorem loadItems_segment_inBounds {s : State} (hs : s.status = .running) {a : Word} {bytes : List Byte}
    (h : InBounds a bytes.length) (rest : List LoadItem) :
    loadItems (.segment a bytes :: rest) s
      = loadItems rest { s with mem := Memory.writeBytes s.mem (offsetOf a) bytes } := by
  rw [loadItems, if_pos h.1, perform_load hs h]

/-- A segment from `BASE` up that leaves the window is fatal (R177). -/
theorem loadItems_segment_fatal {s : State} (hs : s.status = .running) {a : Word} {bytes : List Byte}
    (hbase : Config.base ≤ a.toNat) (h : ¬ InBounds a bytes.length) (rest : List LoadItem) :
    loadItems (.segment a bytes :: rest) s
      = .fatal (.boundsViolation a bytes.length) (raiseFatal (.boundsViolation a bytes.length) s) := by
  rw [loadItems, if_pos hbase, perform_load_fatal hs h]

/-- The two ends of a loader's walk on a running machine: it wrote memory alone, and then completed or was fatal
(R152, R175 to R178). -/
theorem loadItems_cases (items : List LoadItem) {s : State} (hs : s.status = .running) :
    ∃ m : Memory, loadItems items s = .ok () { s with mem := m } ∨
      ∃ why, loadItems items s = .fatal why (raiseFatal why { s with mem := m }) := by
  induction items generalizing s with
  | nil => exact ⟨s.mem, .inl rfl⟩
  | cons item rest ih =>
    cases item with
    | unreadable => exact ⟨s.mem, .inr ⟨_, rfl⟩⟩
    | segment a bytes =>
      by_cases hbase : Config.base ≤ a.toNat
      · by_cases hb : InBounds a bytes.length
        · rw [loadItems_segment_inBounds hs hb]
          exact ih (s := { s with mem := Memory.writeBytes s.mem (offsetOf a) bytes }) hs
        · exact ⟨s.mem, .inr ⟨_, loadItems_segment_fatal hs hbase hb rest⟩⟩
      · rw [loadItems_segment_below hbase]
        exact ih hs

/-- The two ends of the loader on a running machine, for any image: those of the walk (R154, R178). -/
theorem runLoader_cases (image : Image) {s : State} (hs : s.status = .running) :
    ∃ m : Memory, runLoader image s = .ok () { s with mem := m } ∨
      ∃ why, runLoader image s = .fatal why (raiseFatal why { s with mem := m }) := by
  cases image with
  | unparsable => exact ⟨s.mem, .inr ⟨_, runLoader_unparsable hs⟩⟩
  | parsed items =>
    rw [runLoader_parsed hs]
    exact loadItems_cases items hs

/-- The loader writes no register, and so not the PC (R172). -/
theorem regs_runLoader {image : Image} {s t : State} (h : (runLoader image s).stateAfter? = some t) :
    t.regs = s.regs := by
  cases hs : s.status with
  | fatal why =>
    rw [runLoader_of_fatal hs] at h
    cases h
  | running =>
    obtain ⟨m, hok | ⟨why, hfatal⟩⟩ := runLoader_cases image hs
    · rw [hok] at h
      cases h
      rfl
    · rw [hfatal] at h
      cases h
      rfl

/-- A walk that gets past its first items goes on with the others from the state they left. -/
theorem loadItems_append {before : List LoadItem} (after : List LoadItem) {s t : State} (hs : s.status = .running)
    (h : loadItems before s = .ok () t) : loadItems (before ++ after) s = loadItems after t := by
  induction before generalizing s with
  | nil => cases h; rfl
  | cons item rest ih =>
    rw [List.cons_append]
    cases item with
    | unreadable => cases h
    | segment a bytes =>
      by_cases hbase : Config.base ≤ a.toNat
      · by_cases hb : InBounds a bytes.length
        · rw [loadItems_segment_inBounds hs hb] at h ⊢
          exact ih hs h
        · rw [loadItems_segment_fatal hs hbase hb] at h
          cases h
      · rw [loadItems_segment_below hbase] at h ⊢
        exact ih hs h

/-! ## Success and the status -/

/-- An outcome that leaves a state is a success exactly when that state's status is `Running` (R153). -/
def SuccessIffRunning {α : Type} (o : OpOutcome α) : Prop :=
  ∀ t : State, o.stateAfter? = some t → (o.succeeded = true ↔ t.status = .running)

theorem successIffRunning_ok {α : Type} (result : α) {s : State} (hs : s.status = .running) :
    SuccessIffRunning (.ok result s) := by
  intro t h
  cases h
  exact iff_of_true rfl hs

theorem successIffRunning_raiseFatal (α : Type) (why : Fault) (s : State) :
    SuccessIffRunning (.fatal why (raiseFatal why s) : OpOutcome α) := by
  intro t h
  cases h
  exact iff_of_false Bool.false_ne_true (by simp)

/-- A run of a running machine: each step advances, which keeps it running, or is fatal (R95, R99). -/
theorem successIffRunning_runSteps (n : Nat) {s : State} (hs : s.status = .running) :
    SuccessIffRunning (runSteps n s).2 := by
  induction n generalizing s with
  | zero => exact successIffRunning_ok () hs
  | succ n ih =>
    by_cases hb : InBounds (programCounter s.regs) 4
    · rw [runSteps_succ (perform_step_of_canStep ⟨hs, hb⟩)]
      exact ih (s := advanced s) hs
    · rw [runSteps, perform_step_of_out_of_bounds hs hb]
      exact successIffRunning_raiseFatal Unit _ s

/-- A run from construction: the steps begin on a machine that still runs, or the loader is fatal (R99, R174). -/
theorem successIffRunning_runImage (image : Image) (n : Nat) : SuccessIffRunning (runImage image n).2 := by
  unfold runImage
  obtain ⟨m, hok | ⟨why, hfatal⟩⟩ := runLoader_cases image reset_status
  · rw [hok]
    exact successIffRunning_runSteps n rfl
  · rw [hfatal]
    exact successIffRunning_raiseFatal Unit why _

/-! ## The dumps -/

theorem perform_memoryDump {s : State} (hs : s.status = .running) (rows : Nat) :
    perform (.memoryDump rows) s = .ok (.rows (memoryDump s.mem rows)) s := perform_running hs _

theorem perform_registerDump {s : State} (hs : s.status = .running) :
    perform .registerDump s = .ok (.registers (registerDump s.regs)) s := perform_running hs _

/-- The buffer has 16,384 rows of sixteen bytes. -/
theorem memSize_div_dumpRowBytes : Config.memSize / dumpRowBytes = 16384 := rfl

/-- No more rows than the buffer has (R164). -/
theorem length_memoryDump (m : Memory) (rows : Nat) : (memoryDump m rows).length = min rows 16384 := by
  rw [memoryDump, memSize_div_dumpRowBytes, List.length_map, List.length_range]

theorem getElem_memoryDump (m : Memory) (rows : Nat) {r : Nat} (h : r < (memoryDump m rows).length) :
    (memoryDump m rows)[r] = dumpRow m r := by
  simp only [memoryDump, List.getElem_map, List.getElem_range]

theorem length_registerDump (r : RegFile) : (registerDump r).gprs.length = 31 := by
  rw [registerDump, List.length_map, List.length_range]

theorem getElem_registerDump (r : RegFile) {i : Nat} (h : i < (registerDump r).gprs.length) :
    (registerDump r).gprs[i] = readX r (BitVec.ofNat 5 i) := by
  simp only [registerDump, List.getElem_map, List.getElem_range]

/-! ## The bytes a dump shows -/

/-- The sixteen bytes a row shows, in order: those of its four words (R164). -/
def rowBytes (row : DumpRow) : List Byte :=
  Codec.bytesOfWord row.word0 ++ Codec.bytesOfWord row.word1 ++ Codec.bytesOfWord row.word2
    ++ Codec.bytesOfWord row.word3

theorem rowBytes_dumpRow (m : Memory) (r : Nat) :
    rowBytes (dumpRow m r) = (List.range 16).map fun i => Memory.read m (16 * r + i) := by
  simp only [rowBytes, dumpRow, Memory.readWord, Codec.bytesOfWord_wordOfBytes]
  rfl

/-- Rows of `k` in order are the whole range in order. -/
theorem flatMap_range_rows {α : Type} (f : Nat → α) (k rows : Nat) :
    ((List.range rows).flatMap fun r => (List.range k).map fun i => f (k * r + i)) = (List.range (k * rows)).map f := by
  induction rows with
  | zero => rfl
  | succ rows ih =>
    rw [List.range_succ, List.flatMap_append, ih, Nat.mul_succ, List.range_add, List.map_append, List.map_map,
      List.flatMap_singleton]
    rfl

/-- A dump that does not pass the end of the buffer shows its first bytes, in order (R164, R166). -/
theorem memoryDump_bytes (m : Memory) {rows : Nat} (h : rows ≤ 16384) :
    (memoryDump m rows).flatMap rowBytes = (List.range (16 * rows)).map (Memory.read m) := by
  rw [memoryDump, memSize_div_dumpRowBytes, Nat.min_eq_left h, List.flatMap_map]
  simp only [rowBytes_dumpRow]
  exact flatMap_range_rows (Memory.read m) 16 rows

/-- What a host's `load` that completes did (R88). -/
theorem perform_load_eq_ok {s t : State} (hs : s.status = .running) {a : Word} {bytes : List Byte} {v : OpValue}
    (h : perform (.load a bytes) s = .ok v t) :
    InBounds a bytes.length ∧ t = { s with mem := Memory.writeBytes s.mem (offsetOf a) bytes } := by
  by_cases hb : InBounds a bytes.length
  · rw [perform_load hs hb] at h
    cases h
    exact ⟨hb, rfl⟩
  · rw [perform_load_fatal hs hb] at h
    cases h

/-- The bytes written from the buffer's start, read in order, are the bytes written (R88). -/
theorem map_read_writeBytes_zero {m : Memory} (hm : Memory.wf m = true) {bytes : List Byte}
    (hroom : bytes.length ≤ Config.memSize) {n : Nat} (hn : n ≤ bytes.length) :
    (List.range n).map (Memory.read (Memory.writeBytes m 0 bytes)) = bytes.take n := by
  refine List.ext_getElem (by simp [hn]) fun i hi _ => ?_
  have hlt : i < bytes.length := by
    rw [List.length_map, List.length_range] at hi
    omega
  have hread := read_writeBytes_at hm (o := 0) (by omega) hlt
  simpa using hread

/-! ## The statements -/

/-- Settles O37: the status alone refuses a stopped machine, and the loader and the steps of a run leave a running machine
or raise a fatal error. -/
theorem fatalStatusIsTerminal : Obligations.FatalStatusIsTerminal := by
  refine ⟨fun s why hs => ⟨step_of_fatal hs, fun op => perform_of_fatal hs, runLoader_of_fatal hs, fun n => ?_,
    perform_reset s, reset_status⟩, successIffRunning_runImage⟩
  rw [runSteps_succ_of_fatal hs]

/-- Settles O55: the walk up to the segment that cannot be read completed, and no walk writes anything but memory and
the status. -/
theorem loaderFailureIsFatal : Obligations.LoaderFailureIsFatal := by
  refine ⟨fun s => runLoader_unparsable, fun before after s t hs hbefore => ?_, fun _ _ _ => regs_runLoader⟩
  rw [runLoader_parsed hs] at hbefore ⊢
  rw [loadItems_append _ hs hbefore, loadItems]

/-- Settles O56, from the rows and the registers the dumps show. -/
theorem dumpsOnlyRead : Obligations.DumpsOnlyRead := by
  refine fun s hs => ⟨fun rows => ⟨_, perform_memoryDump hs rows, length_memoryDump s.mem rows, fun r h => ?_⟩,
    _, perform_registerDump hs, length_registerDump s.regs, rfl, fun i h => getElem_registerDump s.regs h⟩
  rw [getElem_memoryDump]
  exact ⟨rfl, rfl, rfl, rfl, rfl⟩

/-- Settles O57: the dump shows the first bytes of the buffer, where the load wrote. -/
theorem dumpReproducesTheLoadedBytes : Obligations.DumpReproducesTheLoadedBytes := by
  intro s t bytes rows hs hm hrows hload
  obtain ⟨hb, rfl⟩ := perform_load_eq_ok hs hload
  have hlen : bytes.length ≤ 262144 := (inBounds_base_iff _).mp hb
  exact (memoryDump_bytes _ (by omega)).trans (map_read_writeBytes_zero hm hlen hrows)

end Sys2Proof.Machine
end

section
/-! The loader as an ordered list of loads (spec/70_reset_and_hazards.md R176): both walks end in the same outcome,
fatal ones included, once the answers of the loads are dropped. -/

namespace Sys2Proof.Machine

/-- An outcome without its answer: how it ended, and the state it left. -/
def OpOutcome.withoutResult {α : Type} : OpOutcome α → OpOutcome Unit
  | .ok _ s => .ok () s
  | .fatal why s => .fatal why s
  | .refuse why => .refuse why

@[simp] theorem OpOutcome.stateAfter?_withoutResult {α : Type} (o : OpOutcome α) :
    o.withoutResult.stateAfter? = o.stateAfter? := by
  cases o <;> rfl

@[simp] theorem OpOutcome.succeeded_withoutResult {α : Type} (o : OpOutcome α) :
    o.withoutResult.succeeded = o.succeeded := by
  cases o <;> rfl

section
variable {op : HostOp} (ops : List HostOp) {s s' : State}

/-- Past an operation that completes, a list of operations ends as its rest does. -/
theorem withoutResult_performAll_cons_ok {v : OpValue} (h : perform op s = .ok v s') :
    (performAll (op :: ops) s).withoutResult = (performAll ops s').withoutResult := by
  simp only [performAll, h]
  cases performAll ops s' <;> rfl

/-- A fatal operation ends the list, whatever follows it. -/
theorem performAll_cons_fatal {why : Fault} (h : perform op s = .fatal why s') :
    performAll (op :: ops) s = .fatal why s' := by
  rw [performAll, h]

end

/-- The segments the loader does not skip: those that start at or above `BASE` (R176). -/
def segmentsFromBase (segments : List (Word × List Byte)) : List (Word × List Byte) :=
  segments.filter fun p => decide (Config.base ≤ p.1.toNat)

theorem segmentsFromBase_cons_of_le {p : Word × List Byte} (h : Config.base ≤ p.1.toNat)
    (rest : List (Word × List Byte)) : segmentsFromBase (p :: rest) = p :: segmentsFromBase rest :=
  List.filter_cons_of_pos (decide_eq_true h)

theorem segmentsFromBase_cons_of_not_le {p : Word × List Byte} (h : ¬ Config.base ≤ p.1.toNat)
    (rest : List (Word × List Byte)) : segmentsFromBase (p :: rest) = segmentsFromBase rest :=
  List.filter_cons_of_neg (by simpa using h)

/-- On a running machine the walk over readable segments ends as the loads of those from `BASE` up do, in order: each
one in bounds leaves both a running machine in the same state, and the first out of bounds ends both (R176, R177). -/
theorem loadItems_segments_eq_performAll_loads (segments : List (Word × List Byte)) {s : State}
    (hs : s.status = .running) :
    loadItems (segments.map fun p => .segment p.1 p.2) s
      = (performAll ((segmentsFromBase segments).map fun p => .load p.1 p.2) s).withoutResult := by
  induction segments generalizing s with
  | nil => rfl
  | cons p rest ih =>
    rw [List.map_cons]
    by_cases hbase : Config.base ≤ p.1.toNat
    · rw [segmentsFromBase_cons_of_le hbase, List.map_cons]
      by_cases hb : InBounds p.1 p.2.length
      · rw [loadItems_segment_inBounds hs hb, withoutResult_performAll_cons_ok _ (perform_load hs hb)]
        exact ih hs
      · rw [loadItems_segment_fatal hs hbase hb, performAll_cons_fatal _ (perform_load_fatal hs hb)]
        rfl
    · rw [loadItems_segment_below hbase, segmentsFromBase_cons_of_not_le hbase]
      exact ih hs

/-- Settles O54: the loader's walk is the loads of the segments from `BASE` up, but for the answers. -/
theorem loaderLoadsSegmentsFromBaseUp : Obligations.LoaderLoadsSegmentsFromBaseUp := by
  intro segments s hs
  rw [runLoader_parsed hs, loadItems_segments_eq_performAll_loads segments hs]
  exact ⟨OpOutcome.stateAfter?_withoutResult _, OpOutcome.succeeded_withoutResult _⟩

end Sys2Proof.Machine
end
